-- ==== Sys2Proof/Word.lean ====
section
/-!
DEFINITION. The word and character types of the BitVector Engine and the arithmetic on one word that
00_scope.md R6 and R9 spell out.

R9: "All values are unsigned mathematical naturals unless marked signed". The word width WB is a parameter
of the instance (R6), so the type of a word is `Nat`, and a list of words `List Nat`; that every stored word
is at most TYPE_MAX (R26) is the invariant `State.Inv` of Safety.lean, which every step keeps.
-/

namespace Sys2Proof

/-- One character: an 8-bit code (R27, R47, R120). -/
abbrev Char8 := BitVec 8

/-- `TYPE_MAX = 2^WB − 1`, the maximum value of one word (R6). -/
def typeMax (wb : Nat) : Nat := 2 ^ wb - 1

/-- `trunc_WB(v) = v mod 2^WB`: keeps the low WB bits (R9). -/
def trunc (wb v : Nat) : Nat := v % 2 ^ wb

end Sys2Proof
end

