-- ==== Sys2Proof/Config.lean ====
section
/-!
DEFINITION. What an instance of the engine fixes (00_scope.md R6) and the values the spec leaves free.

Nothing here is engine state (R25): `Params` stands in `State` so that a statement about every state is a
statement about every WORD_BITS, and no step changes it (log entry 1: DESIGN CHOICE, safe).
-/

namespace Sys2Proof

/-- The build-time parameters an instance runs with (R6, R25, D16). TYPE_MAX is derived (`typeMax`), and
CAP belongs to the caller's buffer (`Machine.Buf.cap`). -/
structure Params where
  /-- WORD_BITS (WB): the width of one buffer word in bits, an integer ≥ 1, OPEN per instance (R6). -/
  wordBits : Nat
  deriving DecidableEq, Repr

/-- The widths of the three signed operand ports (R6, R60): OPEN named parameters. The machine itself
takes the operands as unbounded integers (R63); these are read only where a command is laid on its ports
(log entry 20: DESIGN CHOICE, safe). -/
structure Ports where
  /-- `W_PORT_BITS` -/
  wBits : Nat
  /-- `SHIFT_PORT_BITS` -/
  shiftBits : Nat
  /-- `TCAP_PORT_BITS` -/
  tcapBits : Nat
  deriving DecidableEq, Repr

/-- The n-th free draw: an unspecified value (R170 "A model treats every unspecified value as a free
draw, not as a fixed value", U16). It has no body, so no proof can see what it is. Each reader cuts it
to the range the rule gives (log entry 7: DESIGN CHOICE, safe). -/
opaque Config.freeDraw : Nat → Nat

/-- `HOST_WORD_BYTE_ORDER` (R6, R44, D22; OPEN): the bytes, in rising host address, with which the host
lays out a word of the given width and value. No rule of the spec reads it, and no step does (log entry 19:
DESIGN CHOICE, safe). -/
opaque Config.hostWordByteOrder : Nat → Nat → List (BitVec 8)

end Sys2Proof
end

