-- ==== Sys2Proof/Syntax.lean ====
section
/-!
DEFINITION. The commands of the BVE command set, spec revision 1 (30_encoding.md): as the caller issues
them (`Command`, the tuple of R29 and R60), as they stand on ports of a given width (`PortCommand`), and as
the engine performs them (`Instr`, one constructor per row of spec/opcode_table.json, holding exactly the
operands the command reads, R62).
-/

namespace Sys2Proof

/-- A command `(OP, W, SHIFT, TCAP)` (R29, R60). OP is 8 bits; the operands are signed integers passed
whole (R63). -/
structure Command where
  op    : BitVec 8
  w     : Int
  shift : Int
  tcap  : Int
  deriving DecidableEq, Repr

/-- A command on operand ports of the widths `p` (R60, R63): the raw bits of each port. -/
structure PortCommand (p : Ports) where
  op    : BitVec 8
  w     : BitVec p.wBits
  shift : BitVec p.shiftBits
  tcap  : BitVec p.tcapBits
  deriving DecidableEq, Repr

/-- The six commands of R61 with the operands each reads (R62). -/
inductive Instr where
  /-- SHL, `shift_left(buffer, W, shift)` (R83) -/
  | shl (w shift : Int)
  /-- SHR, `shift_right(buffer, W, shift)` (R86) -/
  | shr (w shift : Int)
  /-- INC, `increase(buffer, W)` (R100) -/
  | inc (w : Int)
  /-- DEC, `decrease(buffer, W)` (R102) -/
  | dec (w : Int)
  /-- FMTS, `format_bits(buffer, W)`, streaming form (R122) -/
  | fmts (w : Int)
  /-- FMTB, `format_bits(buffer, W)`, text-buffer form (R124) -/
  | fmtb (w tcap : Int)
  deriving DecidableEq, Repr

/-- The word count operand, which every command reads (R62). -/
def Instr.w : Instr → Int
  | .shl w _ => w
  | .shr w _ => w
  | .inc w => w
  | .dec w => w
  | .fmts w => w
  | .fmtb w _ => w

end Sys2Proof
end

