-- ==== Sys2Proof/WellFormed.lean ====
section
/-!
DEFINITION. When an instruction can be laid on operand ports of given widths (30_encoding.md R60, R63).

On unbounded integers every instruction is well formed: R63 admits every value, and an operand out of a
command's range is an error response, not an ill-formed command (R142). On ports P bits wide an operand
is the value of a P-bit two's-complement number.
-/

namespace Sys2Proof

/-- `v` is the value of some `bits`-wide two's-complement port: `−2^(bits−1) ≤ v < 2^(bits−1)` (R63),
written without the subtraction so that a port of width 0 carries exactly the value 0. -/
def fitsPort (bits : Nat) (v : Int) : Bool :=
  decide (-(2 ^ bits : Int) ≤ 2 * v) && decide (2 * v < (2 ^ bits : Int))

/-- Every operand the instruction reads (R62) fits its port. -/
def Instr.wellFormed (p : Ports) : Instr → Bool
  | .shl w shift => fitsPort p.wBits w && fitsPort p.shiftBits shift
  | .shr w shift => fitsPort p.wBits w && fitsPort p.shiftBits shift
  | .inc w => fitsPort p.wBits w
  | .dec w => fitsPort p.wBits w
  | .fmts w => fitsPort p.wBits w
  | .fmtb w tcap => fitsPort p.wBits w && fitsPort p.tcapBits tcap

end Sys2Proof
end

