-- ==== Sys2Proof/Decode.lean ====
section
/-!
DEFINITION. Decoding (30_encoding.md R61, R64, R65), total on every command, and after it the encoder.

Only `OP[7:0]` takes part in decoding (R61). An OP value that R61 does not assign is rejected by name
(`reservedOp`); what the engine does with it is `Machine.reject` (R64).
-/

namespace Sys2Proof

/-- Why a command encodes no operation. -/
inductive DecodeError where
  /-- OP is 0x00 or 0x07 to 0xFF (R64). -/
  | reservedOp (op : BitVec 8)
  deriving DecidableEq, Repr

/-- The command's operation and the operands it reads (R61, R62). Operands a command does not read are
dropped: they are "not validated" and never cause an error (R62, D4). -/
def decode (c : Command) : Except DecodeError Instr :=
  match c.op.toNat with
  | 0x01 => .ok (.shl c.w c.shift)
  | 0x02 => .ok (.shr c.w c.shift)
  | 0x03 => .ok (.inc c.w)
  | 0x04 => .ok (.dec c.w)
  | 0x05 => .ok (.fmts c.w)
  | 0x06 => .ok (.fmtb c.w c.tcap)
  | _ => .error (.reservedOp c.op)

/-- Reading the ports: each operand is `sext_P(port bits)`, a two's-complement signed integer (R63). -/
def PortCommand.toCommand {p : Ports} (c : PortCommand p) : Command :=
  { op := c.op, w := c.w.toInt, shift := c.shift.toInt, tcap := c.tcap.toInt }

/-- The command of a word of spec/opcode_table.json: the table gives a row the 8 bits of OP and no bit of
any operand port, so every operand is 0 (log entry 12: DESIGN CHOICE, safe). -/
def Command.ofTableWord (nbits w : Nat) : Command :=
  { op := BitVec.ofNat 8 (w % 2 ^ nbits), w := 0, shift := 0, tcap := 0 }

/-- The instruction the decoder reads from a table word of `nbits` bits. -/
def decodeTableWord (nbits w : Nat) : Option Instr :=
  match decode (Command.ofTableWord nbits w) with
  | .ok i => some i
  | .error _ => none

/-- The OP value of each command (R61). -/
def Instr.op : Instr → BitVec 8
  | .shl _ _ => 0x01#8
  | .shr _ _ => 0x02#8
  | .inc _ => 0x03#8
  | .dec _ => 0x04#8
  | .fmts _ => 0x05#8
  | .fmtb _ _ => 0x06#8

/-- The command that encodes an instruction: OP from R61, each operand it reads on its port, and 0 for
"an operand the command does not read" (R67). -/
def encode (i : Instr) : Command :=
  match i with
  | .shl w shift => { op := i.op, w := w, shift := shift, tcap := 0 }
  | .shr w shift => { op := i.op, w := w, shift := shift, tcap := 0 }
  | .inc w => { op := i.op, w := w, shift := 0, tcap := 0 }
  | .dec w => { op := i.op, w := w, shift := 0, tcap := 0 }
  | .fmts w => { op := i.op, w := w, shift := 0, tcap := 0 }
  | .fmtb w tcap => { op := i.op, w := w, shift := 0, tcap := tcap }

/-- Driving the ports: each operand as the low bits of its two's-complement form (R63). -/
def Command.toPorts (p : Ports) (c : Command) : PortCommand p :=
  { op := c.op, w := BitVec.ofInt p.wBits c.w, shift := BitVec.ofInt p.shiftBits c.shift,
    tcap := BitVec.ofInt p.tcapBits c.tcap }

end Sys2Proof
end

