-- ==== Sys2Proof/Machine/State.lean ====
section
/-!
DEFINITION. The state (10_state.md), as plain data; why a step can stop; and the state right after reset.

THE ENGINE ITSELF HAS NO STATE between commands (R21): no register, pc, flag or control register (R22 to
R25). Every field below is the caller-owned storage the engine reaches (R26 to R28), the response the caller
receives (R30), the host's side of the transaction (R20, R23), the build parameters (R25), or the counter
of free draws.
-/

namespace Sys2Proof.Machine

/-- Storage indexed from 0 (R51): the written locations with their contents, indices strictly rising
(`Memory.wf`). An unlisted index holds nothing the model may read: the caller never wrote it (R171). -/
abbrev Memory (α : Type) := List (Nat × α)

/-- The caller's word buffer (R26). -/
structure Buf where
  /-- CAP: the buffer's real length in words, an integer ≥ 1 (R6, R26). -/
  cap : Nat
  /-- The words the caller or a command wrote; index 0 is the most significant word (R40). A word is a natural
  number, at most TYPE_MAX by the invariant (log entry 18: DESIGN CHOICE, safe). -/
  words : Memory Nat
  deriving DecidableEq, Repr

/-- The storage one command names: a word buffer, a text destination and a character sink, all caller-owned (R26 to
R28, log entry 3: DESIGN CHOICE, unsafe), and where the caller let the first two share storage (R58). -/
structure Storage where
  buf : Buf
  /-- The text destination: 8-bit characters by index (R27). Its length is the TCAP each FMTB declares (R172,
  log entry 15: DEDUCED, unsafe). -/
  txt : List Host.Cell
  /-- Every character handed to the sink, oldest first (R28, R49). -/
  sink : List Char8
  /-- The pairs (Txt index, Buf index) whose storage overlaps (R58); empty for disjoint storage
  (log entry 6: DESIGN CHOICE, unsafe). -/
  shared : List (Nat × Nat)
  deriving DecidableEq, Repr

/-- STATUS (R30, R141). The codes 5 to 7 are never returned, so they have no constructor. -/
inductive Status where
  | ok | invalidLength | invalidShiftAmount | bufferTooSmall | invalidCommand
  deriving DecidableEq, Repr

/-- A response `(STATUS, COUNT, WRAP)` (R30). -/
structure Response where
  status : Status
  count : Nat
  wrap : Bool
  deriving DecidableEq, Repr

/-- A location another agent can touch, within one storage (R50, R53, R173). -/
inductive Location where
  | word (k : Nat) | char (j : Nat) | sink
  deriving DecidableEq, Repr

/-- A command the host issues (R20, R29), with what else happens while it runs. -/
structure Issue where
  /-- The storage the command names (the `buffer` of the source's signatures, R61). -/
  store : Nat
  cmd : Command
  /-- The locations, each with the storage it lies in, that some other agent or overlapping command reads
  or writes while this command runs (R53, R173, R174). Empty under the issue discipline. -/
  touched : List (Nat × Location)
  /-- Reset arrives while this command is in progress (R170). -/
  resetDuring : Bool
  deriving DecidableEq, Repr

/-- What the outside does next (R20). Every input but `issue` falls between two commands. -/
inductive Input where
  /-- The host issues a command. -/
  | issue (q : Issue)
  /-- Reset with no command in progress (R170). -/
  | reset
  /-- The caller provides a fresh word buffer of CAP words (R171 item 1), saying where the text
  destination shares its storage (R58). -/
  | provide (store cap : Nat) (shared : List (Nat × Nat))
  /-- The caller writes a Buf word (R171 item 2). -/
  | writeWord (store k : Nat) (v : Nat)
  /-- The caller writes a character of its text destination (R27). -/
  | writeChar (store j : Nat) (c : Char8)
  deriving DecidableEq, Repr

/-- The machine's state. -/
structure State where
  /-- WORD_BITS; no step changes it (R25, log entry 1: DESIGN CHOICE, safe). -/
  params : Params
  /-- The storage of each caller, by a number the engine does not see (R155); no entry equals
  `Storage.initial`, which is what an unlisted number holds (log entry 4: DESIGN CHOICE, unsafe). -/
  stores : List (Nat × Storage)
  /-- The storage the latest command named (log entry 3: DESIGN CHOICE, unsafe). -/
  active : Nat
  /-- What the outside does next, first to come first (log entry 13: DESIGN CHOICE, safe). -/
  inputs : List Input
  /-- The response the latest step returned to its caller, if it returned one (R30, R32). Nothing reads it
  (log entry 14: DESIGN CHOICE, unsafe). -/
  response : Option Response
  /-- The host-side command index: how many responses were returned (R23). -/
  index : Nat
  /-- How many free draws were taken: the MODEL's own field (log entry 7: DESIGN CHOICE, safe). -/
  draws : Nat
  deriving DecidableEq, Repr

/-- Why the machine stops with a fault. -/
inductive Fault where
  /-- Raised by step: another agent touches the storage of a running command (R173, U20). The run has no
  meaning after it and the machine stays stopped, so the fault is never cleared. Safe. -/
  | race
  /-- Raised by every meaning that reads a Buf word the caller never wrote (R171 item 2, U17). Safe. -/
  | unwrittenWord
  /-- Raised by a Buf or Txt access outside the range R10 states ("should treat such an access as a fault of
  the model"). It never happens, because every command checks W first (R142). Safe. -/
  | outOfRange
  deriving DecidableEq, Repr

/-- Why the machine gives no meaning. -/
inductive Refusal where
  /-- An instruction with no meaning yet, by its mnemonic. No arm of exec answers it now. Safe. -/
  | notModelled (mnemonic : String)
  /-- Raised by FMTB where Txt `[0, TCAP)` shares storage with Buf `[0, W)`: "a model refuses such a command"
  (R58, U18). Safe. -/
  | txtOverlapsBuf
  /-- Raised by step on a host input no host may make: a buffer of 0 words, a word past CAP or above TYPE_MAX
  (R6, R26, U19 "no such host move"). Safe. -/
  | noSuchHostMove
  deriving DecidableEq, Repr

/-- The storage of a caller that has provided nothing: a buffer of one word, unwritten (log entry 4: DESIGN CHOICE,
unsafe). -/
def Storage.initial : Storage :=
  { buf := { cap := 1, words := [] }, txt := [], sink := [], shared := [] }

/-- The machine right after reset (R32, R170): no response pending, the host at command index 0 (R23), no
caller storage written yet, nothing issued. Reset itself changes no storage; that the machine starts with
none written, and WORD_BITS = 8, are choices (log entry 4: DESIGN CHOICE, unsafe; log entry 2: DESIGN CHOICE,
unsafe). -/
def State.reset : State :=
  { params := { wordBits := 8 }, stores := [], active := 0, inputs := [], response := none,
    index := 0, draws := 0 }

end Sys2Proof.Machine
end

