-- ==== Sys2Proof/Machine/Flags.lean ====
section
/-!
DEFINITION. The three fields of a response (R30). The engine has no flags (R24): STATUS and WRAP are outputs
of one command that no later command reads.
-/

namespace Sys2Proof.Machine

/-- The 3-bit STATUS code (R30, R141). -/
def Status.code : Status → BitVec 3
  | .ok => 0#3
  | .invalidLength => 1#3
  | .invalidShiftAmount => 2#3
  | .bufferTooSmall => 3#3
  | .invalidCommand => 4#3

/-- The response of a command that succeeded, `respond(OK, count, wrap)` (R10, R30). -/
def Response.success (count : Nat) (wrap : Bool) : Response :=
  { status := .ok, count := count, wrap := wrap }

/-- The response of an error, `respond(code(E), 0, 0)` (R10, R144). -/
def Response.failure (e : Status) : Response := { status := e, count := 0, wrap := false }

/-- The latest step returned a response with STATUS = OK. -/
def State.succeeded (s : State) : Bool :=
  match s.response with
  | some r => decide (r.status = .ok)
  | none => false

end Sys2Proof.Machine
end

