-- ==== Sys2Proof/Machine/Operands.lean ====
section
/-!
DEFINITION. Operand forms and the arithmetic of word sequences: the value of a buffer (R11), the position
mapping (R42), the two parts of a shift (R80) and its passes on a sequence of words (R81, R82, R84, R85), and
the validation conditions of R142.

A sequence of words lists Buf[0], Buf[1], … in index order, so its head is the most significant word (R40).
-/

namespace Sys2Proof.Machine

/-- `val(Buf, W) = Σ Buf[k] * 2^(WB*(W−1−k))` over the W listed words (R11). -/
def val (wb : Nat) : List Nat → Nat
  | [] => 0
  | x :: rest => x * 2 ^ (wb * rest.length) + val wb rest

/-- `fromval(v, W)`: word k is `(v >> (WB*(W−1−k))) & TYPE_MAX`, for k in `[0, W)` (R11). -/
def fromval (wb v w : Nat) : List Nat :=
  (List.range w).map fun k => (v >>> (wb * (w - 1 - k))) &&& typeMax wb

/-- The bit at position `p` (0 = the most significant bit of the whole buffer): word `p div WB`, LSB-0 bit
`WB − 1 − (p mod WB)` (R42). -/
def bitAt (wb : Nat) (ws : List Nat) (p : Nat) : Bool :=
  (ws.getD (p / wb) 0).testBit (wb - 1 - p % wb)

/-- `shift1 = SHIFT div WB`, the whole-word part (R80). -/
def shift1 (wb shift : Nat) : Nat := shift / wb

/-- `shift2 = SHIFT mod WB`, the sub-word part (R80). -/
def shift2 (wb shift : Nat) : Nat := shift % wb

/-- The SHL sub-word pass on the W words (R82): index ascending, each word shifted left with the carry from
the next word, which is still as the whole-word pass left it; the boundary word W−1 receives no carry-in. -/
def subWordLeft (wb s : Nat) : List Nat → List Nat
  | [] => []
  | [x] => [trunc wb (x <<< s)]
  | x :: y :: rest => (trunc wb (x <<< s) ||| (y >>> (wb - s))) :: subWordLeft wb s (y :: rest)

/-- The words of the SHR sub-word pass after a word `before` (R85). -/
def subWordRightAfter (wb s : Nat) (before : Nat) : List Nat → List Nat
  | [] => []
  | x :: rest => ((x >>> s) ||| trunc wb (before <<< (wb - s))) :: subWordRightAfter wb s x rest

/-- The SHR sub-word pass on the W words (R85): the boundary word 0 receives no carry-in, every other word
the carry from the word before it, which is still as the whole-word pass left it. -/
def subWordRight (wb s : Nat) : List Nat → List Nat
  | [] => []
  | x :: rest => (x >>> s) :: subWordRightAfter wb s x rest

/-- `chr(b)`: '0' is 0x30 and '1' is 0x31 (R120, G1, G2, log entry 22: PRESUMED, unsafe). -/
def chr (b : Bool) : Char8 := if b then 0x31#8 else 0x30#8

/-- The newline FMTS ends its output with (R120, G3). -/
def newline : Char8 := 0x0A#8

/-- The terminator FMTB ends its text with (R120, G4). -/
def terminator : Char8 := 0x00#8

/-- `bits(Buf, W)`: the N characters `c_j = chr(bitAt(Buf, W, j))` of the W listed words, most significant bit
first (R121, R43). -/
def bitString (wb : Nat) (ws : List Nat) : List Char8 :=
  (List.range (ws.length * wb)).map fun j => chr (bitAt wb ws j)

/-- `N = W * WB` (R7). -/
def bitWidth (wb w : Nat) : Nat := w * wb

/-- InvalidLength's condition: `W ≤ 0` or `W > CAP` (R141, R142 item 2, R145), on exact integers (R7). -/
def badLength (cap : Nat) (w : Int) : Bool := decide (w ≤ 0) || decide ((cap : Int) < w)

/-- InvalidShiftAmount's condition: `SHIFT < 0` (R141, R142 item 3). -/
def badShift (shift : Int) : Bool := decide (shift < 0)

/-- BufferTooSmall's condition: `TCAP < N + 1` (R141, R142 item 3), for a valid W, on exact integers (R7). -/
def badTcap (wb : Nat) (w tcap : Int) : Bool := decide (tcap < w * wb + 1)

/-- The bytes of one word in byte-addressed host memory (R44): with WB = 8 the word is one byte, otherwise
the layout is the OPEN parameter (log entry 19: DESIGN CHOICE, safe). No command reads it. -/
def hostBytes (wb : Nat) (v : Nat) : List (BitVec 8) :=
  if wb = 8 then [BitVec.ofNat 8 v] else Config.hostWordByteOrder wb v

end Sys2Proof.Machine
end

