-- ==== Sys2Proof/Machine/Ops.lean ====
section
/-!
DEFINITION. The named operations over storage and the response: reading and writing one location (R10), runs
of them, a caller's storage within the state, returning a response, and raising an error (R144).

An access outside the range R10 states is a fault (`outOfRange`), a read of a word the caller never wrote is
one too (`unwrittenWord`, R171). Every access is one whole word or one character (R47).
-/

namespace Sys2Proof.Machine

/-! ## Storage by index -/

/-- The contents of a location, if it was written. -/
def Memory.read {α : Type} : Memory α → Nat → Option α
  | [], _ => none
  | (a, x) :: rest, k => if a = k then some x else Memory.read rest k

/-- Writing a location, keeping the indices strictly rising. -/
def Memory.write {α : Type} : Memory α → Nat → α → Memory α
  | [], k, v => [(k, v)]
  | (a, x) :: rest, k, v =>
    if k < a then (k, v) :: (a, x) :: rest
    else if a = k then (k, v) :: rest
    else (a, x) :: Memory.write rest k v

/-- Leaving a location unwritten. -/
def Memory.erase {α : Type} (m : Memory α) (k : Nat) : Memory α := m.filter fun c => c.1 ≠ k

/-- Location `i` gets `f i` for each `i < n`. -/
def Memory.fill {α : Type} (f : Nat → α) : Nat → Memory α → Memory α
  | 0, m => m
  | n + 1, m => Memory.write (Memory.fill f n m) n (f n)

/-- The canonical form: indices strictly rising. No listed entry can equal what an unlisted index reads as,
since that is no value at all. -/
abbrev Memory.wf {α : Type} (m : Memory α) : Prop := m.Pairwise fun a b => a.1 < b.1

/-! ## The word buffer -/

/-- `Buf[k]` in a command with word count `w` (R10): requires `0 ≤ k < W`, and `W ≤ CAP` was checked. -/
def Buf.read (b : Buf) (w k : Nat) : Except Fault Nat :=
  if k < w ∧ k < b.cap then
    match b.words.read k with
    | some v => .ok v
    | none => .error .unwrittenWord
  else .error .outOfRange

/-- `Buf[k] <- v` in a command with word count `w` (R10). -/
def Buf.write (b : Buf) (w k : Nat) (v : Nat) : Except Fault Buf :=
  if k < w ∧ k < b.cap then .ok { b with words := b.words.write k v } else .error .outOfRange

/-- The `n` words from index `k` on. -/
def Buf.readRun (b : Buf) (w : Nat) (k : Nat) : Nat → Except Fault (List Nat)
  | 0 => .ok []
  | n + 1 =>
    match b.read w k with
    | .error f => .error f
    | .ok v =>
      match Buf.readRun b w (k + 1) n with
      | .error f => .error f
      | .ok vs => .ok (v :: vs)

/-- Writing the listed words from index `k` on. -/
def Buf.writeRun (w : Nat) : Buf → Nat → List Nat → Except Fault Buf
  | b, _, [] => .ok b
  | b, k, v :: vs =>
    match b.write w k v with
    | .error f => .error f
    | .ok b' => Buf.writeRun w b' (k + 1) vs

/-- The carry or borrow scan of R100 and R102 over the words below index `n`, from `n − 1` downward: the first
word that is not at the `boundary` absorbs it and the scan stops; a word at the boundary becomes `wrapped` and
the scan goes on to its left. The answer's Bool says that no word absorbed it. -/
def Buf.propagate (w : Nat) (boundary wrapped : Nat) (absorb : Nat → Nat) :
    Nat → Buf → Except Fault (Buf × Bool)
  | 0, b => .ok (b, true)
  | k + 1, b =>
    match b.read w k with
    | .error f => .error f
    | .ok x =>
      if x ≠ boundary then
        match b.write w k (absorb x) with
        | .error f => .error f
        | .ok b' => .ok (b', false)
      else
        match b.write w k wrapped with
        | .error f => .error f
        | .ok b' => Buf.propagate w boundary wrapped absorb k b'

/-! ## The text destination -/

/-- `Txt[j] <- c` for a destination of declared length `tcap`: requires `0 ≤ j < TCAP` (R10). -/
def writeTxt (tcap : Nat) (txt : List Host.Cell) (j : Nat) (c : Char8) : Except Fault (List Host.Cell) :=
  if j < tcap then .ok (Memory.write txt j c) else .error .outOfRange

/-- Writing the listed characters from index `j` on. -/
def writeTxtRun (tcap : Nat) : List Host.Cell → Nat → List Char8 → Except Fault (List Host.Cell)
  | txt, _, [] => .ok txt
  | txt, j, c :: cs =>
    match writeTxt tcap txt j c with
    | .error f => .error f
    | .ok txt' => writeTxtRun tcap txt' (j + 1) cs

/-- Txt `[0, TCAP)` shares storage with Buf `[0, W)` (R58). -/
def Storage.overlaps (st : Storage) (w tcap : Nat) : Bool :=
  st.shared.any fun p => decide (p.1 < tcap) && decide (p.2 < w)

/-! ## A caller's storage within the state -/

/-- The storage of number `k`. -/
def State.storageAt (s : State) (k : Nat) : Storage := (Memory.read s.stores k).getD Storage.initial

/-- Replacing the storage of number `k`. -/
def State.setStorageAt (s : State) (k : Nat) (st : Storage) : State :=
  { s with stores := if st = Storage.initial then Memory.erase s.stores k else Memory.write s.stores k st }

/-- The storage the command in hand names. -/
def State.storage (s : State) : Storage := s.storageAt s.active

/-- Replacing the storage the command in hand names. -/
def State.setStorage (s : State) (st : Storage) : State := s.setStorageAt s.active st

/-- WORD_BITS of the instance (R6). -/
def State.wb (s : State) : Nat := s.params.wordBits

/-- Replacing the word buffer the command names; its text destination and sink stay. -/
def State.setBuf (s : State) (b : Buf) : State := s.setStorage { s.storage with buf := b }

/-- Replacing the text destination the command names; its buffer and sink stay. -/
def State.setTxt (s : State) (txt : List Host.Cell) : State := s.setStorage { s.storage with txt := txt }

/-- `SinkPut` of each listed character, in order (R10, R49). -/
def State.sinkPut (s : State) (cs : List Char8) : State :=
  s.setStorage { s.storage with sink := s.storage.sink ++ cs }

/-! ## The response -/

/-- Returning the response: it goes to the caller, and the host's command index advances by exactly 1 (R10,
R23, R30). -/
def State.respond (s : State) (r : Response) : State := { s with response := some r, index := s.index + 1 }

/-- `raise E` (R10, R140, R144, R146): the engine's only exception mechanism. The response `(code(E), 0, 0)` is
the command's whole effect; there is no handler and no return from one (R147). -/
def State.raise (s : State) (e : Status) : State := s.respond (Response.failure e)

/-- A command with a reserved OP: InvalidCommand, and nothing read or written (R64, R142 item 1). -/
def State.reject (s : State) : State := s.raise .invalidCommand

/-- The operation of a successful command that leaves the buffer as it stands, or faults. -/
def State.finishBuf (s : State) (wrap : Bool) : Except Fault Buf → Host.Outcome State Fault Refusal
  | .ok b => .next ((s.setBuf b).respond (Response.success 0 wrap))
  | .error f => .fault f

end Sys2Proof.Machine
end

