-- ==== Sys2Proof/Machine/Format.lean ====
section
/-!
DEFINITION. The format family, FMTS and FMTB (42_format.md R120 to R124). Neither writes Buf.
-/

namespace Sys2Proof.Machine

/-- What FMTS hands to the sink for the W listed words: the N bit characters and one newline (R122). -/
def streamText (wb : Nat) (ws : List Nat) : List Char8 := bitString wb ws ++ [newline]

/-- What FMTB writes for the W listed words: the N bit characters and the terminator (R124). -/
def bufferText (wb : Nat) (ws : List Nat) : List Char8 := bitString wb ws ++ [terminator]

/-- FMTS W (R122). -/
def execFmts (w : Int) (s : State) : Host.Outcome State Fault Refusal :=
  if badLength s.storage.buf.cap w then .next (s.raise .invalidLength)
  else
    match s.storage.buf.readRun w.toNat 0 w.toNat with
    | .error f => .fault f
    | .ok ws =>
      .next ((s.sinkPut (streamText s.wb ws)).respond (Response.success (bitWidth s.wb w.toNat) false))

/-- FMTB W, TCAP (R124). A valid command whose Txt shares storage with its Buf words is refused (R58); an
error is answered first (log entry 5: DESIGN CHOICE, unsafe). -/
def execFmtb (w tcap : Int) (s : State) : Host.Outcome State Fault Refusal :=
  if badLength s.storage.buf.cap w then .next (s.raise .invalidLength)
  else if badTcap s.wb w tcap then .next (s.raise .bufferTooSmall)
  else if s.storage.overlaps w.toNat tcap.toNat then .refused .txtOverlapsBuf
  else
    match s.storage.buf.readRun w.toNat 0 w.toNat with
    | .error f => .fault f
    | .ok ws =>
      match writeTxtRun tcap.toNat s.storage.txt 0 (bufferText s.wb ws) with
      | .error f => .fault f
      | .ok txt => .next ((s.setTxt txt).respond (Response.success (bitWidth s.wb w.toNat) false))

end Sys2Proof.Machine
end

