-- ==== Sys2Proof/Machine/IncDec.lean ====
section
/-!
DEFINITION. The increment and decrement family, INC and DEC (41_incdec.md R100 to R104).
-/

namespace Sys2Proof.Machine

/-- The carry scan of INC (R100): a word below TYPE_MAX absorbs the carry, a word at TYPE_MAX becomes 0. -/
def carryScan (wb w : Nat) (b : Buf) : Except Fault (Buf × Bool) :=
  Buf.propagate w (typeMax wb) 0 (fun x => x + 1) w b

/-- The borrow scan of DEC (R102): a nonzero word absorbs the borrow, a zero word becomes TYPE_MAX. -/
def borrowScan (wb w : Nat) (b : Buf) : Except Fault (Buf × Bool) :=
  Buf.propagate w 0 (typeMax wb) (fun x => x - 1) w b

/-- Ending INC or DEC: WRAP says that no word absorbed the carry or borrow (R100, R102, D10). -/
def State.finishScan (s : State) : Except Fault (Buf × Bool) → Host.Outcome State Fault Refusal
  | .ok (b, wrap) => s.finishBuf wrap (.ok b)
  | .error f => .fault f

/-- INC W (R100). -/
def execInc (w : Int) (s : State) : Host.Outcome State Fault Refusal :=
  if badLength s.storage.buf.cap w then .next (s.raise .invalidLength)
  else s.finishScan (carryScan s.wb w.toNat s.storage.buf)

/-- DEC W (R102). -/
def execDec (w : Int) (s : State) : Host.Outcome State Fault Refusal :=
  if badLength s.storage.buf.cap w then .next (s.raise .invalidLength)
  else s.finishScan (borrowScan s.wb w.toNat s.storage.buf)

end Sys2Proof.Machine
end

