-- ==== Sys2Proof/Machine/Shift.lean ====
section
/-!
DEFINITION. The shift family, SHL and SHR (40_shift.md R80 to R88).

The whole-word pass reads only the words it moves, so a shift that moves none (SHIFT ≥ N clears the buffer,
R68) needs no word the caller wrote (log entry 24: DEDUCED, unsafe). With shift1 = 0 it leaves the buffer as it is
(R81 "Buf' = Buf") and reads nothing (log entry 8: DESIGN CHOICE, unsafe). Each pass reads its words, computes the
new ones and writes them (log entry 23: DESIGN CHOICE, safe).
-/

namespace Sys2Proof.Machine

/-- SHL whole-word pass (R81): `Buf'[k] = Buf[k + shift1]` where that index is below W, else 0. -/
def wholeWordLeft (w s1 : Nat) (b : Buf) : Except Fault Buf :=
  if s1 = 0 then .ok b
  else
    match b.readRun w s1 (w - s1) with
    | .error f => .error f
    | .ok ws => b.writeRun w 0 (ws ++ List.replicate (min s1 w) 0)

/-- SHR whole-word pass (R84): `Buf'[k] = Buf[k − shift1]` where `k ≥ shift1`, else 0. -/
def wholeWordRight (w s1 : Nat) (b : Buf) : Except Fault Buf :=
  if s1 = 0 then .ok b
  else
    match b.readRun w 0 (w - s1) with
    | .error f => .error f
    | .ok ws => b.writeRun w 0 (List.replicate (min s1 w) 0 ++ ws)

/-- A sub-word pass over the words `[0, W)`, skipped if shift2 = 0 (R82, R85). -/
def subWordPass (pass : List Nat → List Nat) (w s2 : Nat) (b : Buf) : Except Fault Buf :=
  if s2 = 0 then .ok b
  else
    match b.readRun w 0 w with
    | .error f => .error f
    | .ok ws => b.writeRun w 0 (pass ws)

/-- The two passes of SHL (R83). -/
def shiftLeft (wb w shift : Nat) (b : Buf) : Except Fault Buf :=
  match wholeWordLeft w (shift1 wb shift) b with
  | .error f => .error f
  | .ok b' => subWordPass (subWordLeft wb (shift2 wb shift)) w (shift2 wb shift) b'

/-- The two passes of SHR (R86). -/
def shiftRight (wb w shift : Nat) (b : Buf) : Except Fault Buf :=
  match wholeWordRight w (shift1 wb shift) b with
  | .error f => .error f
  | .ok b' => subWordPass (subWordRight wb (shift2 wb shift)) w (shift2 wb shift) b'

/-- SHL W, SHIFT (R83). -/
def execShl (w shift : Int) (s : State) : Host.Outcome State Fault Refusal :=
  if badLength s.storage.buf.cap w then .next (s.raise .invalidLength)
  else if badShift shift then .next (s.raise .invalidShiftAmount)
  else s.finishBuf false (shiftLeft s.wb w.toNat shift.toNat s.storage.buf)

/-- SHR W, SHIFT (R86). -/
def execShr (w shift : Int) (s : State) : Host.Outcome State Fault Refusal :=
  if badLength s.storage.buf.cap w then .next (s.raise .invalidLength)
  else if badShift shift then .next (s.raise .invalidShiftAmount)
  else s.finishBuf false (shiftRight s.wb w.toNat shift.toNat s.storage.buf)

end Sys2Proof.Machine
end

