-- ==== Sys2Proof/Machine/Dispatch.lean ====
section
/-!
DEFINITION. exec: one arm per command of R61, each one direct call of its meaning.
-/

namespace Sys2Proof.Machine

def exec (i : Instr) (s : State) : Host.Outcome State Fault Refusal :=
  match i with
  | .shl w shift => Sys2Proof.Machine.execShl w shift s
  | .shr w shift => Sys2Proof.Machine.execShr w shift s
  | .inc w => Sys2Proof.Machine.execInc w s
  | .dec w => Sys2Proof.Machine.execDec w s
  | .fmts w => Sys2Proof.Machine.execFmts w s
  | .fmtb w tcap => Sys2Proof.Machine.execFmtb w tcap s

end Sys2Proof.Machine
end

