-- ==== Sys2Proof/Machine/Transact.lean ====
section
/-!
DEFINITION. The host interface (20_memory.md R52, R53; 70_reset_and_hazards.md): what a command in progress uses
and when another agent's access races with it (R173, log entry 16: DEDUCED, safe), what reset leaves of an
interrupted command (R170), and what each input of the host does.
-/

namespace Sys2Proof.Machine

/-! ## Races -/

/-- Buf words `[0, W)` of the command (R173), whether or not it reaches them all. -/
def usesWord (i : Instr) (k : Nat) : Bool := decide ((k : Int) < i.w)

/-- The Txt of an FMTB, `[0, TCAP)` (R27, R173). -/
def usesChar (i : Instr) (j : Nat) : Bool :=
  match i with
  | .fmtb _ tcap => decide ((j : Int) < tcap)
  | .shl _ _ | .shr _ _ | .inc _ | .dec _ | .fmts _ => false

/-- The sink of an FMTS (R173). -/
def usesSink (i : Instr) : Bool :=
  match i with
  | .fmts _ => true
  | .shl _ _ | .shr _ _ | .inc _ | .dec _ | .fmtb _ _ => false

/-- An access to the location is an access to what the command uses, shared storage included (R58, R173). -/
def Storage.usedBy (st : Storage) (i : Instr) : Location → Bool
  | .word k => usesWord i k || st.shared.any fun p => decide (p.2 = k) && usesChar i p.1
  | .char j => usesChar i j || st.shared.any fun p => decide (p.1 = j) && usesWord i p.2
  | .sink => usesSink i

/-- Some other agent touched what the command uses while it ran: a data race (R173, R174). Accesses to other
storage never race (R52, R155). -/
def State.raced (s : State) (i : Instr) (touched : List (Nat × Location)) : Bool :=
  touched.any fun a => decide (a.1 = s.active) && s.storage.usedBy i a.2

/-! ## Reset -/

/-- A fresh value for each Buf word `[0, W)`: some value in `[0, TYPE_MAX]` (R170). -/
def State.drawWords (s : State) (w : Nat) : State :=
  { s.setBuf { s.storage.buf with
      words := Memory.fill (fun k => trunc s.wb (Config.freeDraw (s.draws + k))) w s.storage.buf.words } with
    draws := s.draws + w }

/-- A fresh value for each Txt character `[0, N]`: some 8-bit value (R170). -/
def State.drawChars (s : State) (n : Nat) : State :=
  { s.setTxt (Memory.fill (fun j => BitVec.ofNat 8 (Config.freeDraw (s.draws + j))) (n + 1) s.storage.txt) with
    draws := s.draws + (n + 1) }

/-- The sink has received some leading part, from none to all, of the `n + 1` characters an FMTS hands it (R170).
`t` is the state the whole FMTS would have led to. -/
def State.drawSink (s t : State) (n : Nat) : State :=
  { s.setStorage { s.storage with
      sink := t.storage.sink.take (s.storage.sink.length + Config.freeDraw s.draws % (n + 2)) } with
    draws := s.draws + 1 }

/-- "Each location that command may write takes an unspecified value" (R170): from `s`, where the command
would have led to `t` (log entry 17: DEDUCED, unsafe). -/
def unspecified (i : Instr) (s t : State) : State :=
  match i with
  | .shl w _ => s.drawWords w.toNat
  | .shr w _ => s.drawWords w.toNat
  | .inc w => s.drawWords w.toNat
  | .dec w => s.drawWords w.toNat
  | .fmts w => s.drawSink t (bitWidth s.wb w.toNat)
  | .fmtb w _ => s.drawChars (bitWidth s.wb w.toNat)

/-- Reset arrives while the command is in progress (R170): it is abandoned and returns no response. A command that
would be an error writes nothing (R140); one the model gives no meaning keeps that stop (log entry 9: DEDUCED,
safe). -/
def abandon (i : Instr) (s : State) : Host.Outcome State Fault Refusal :=
  match exec i s with
  | .next t => .next (if t.succeeded then unspecified i s t else s)
  | .fault f => .fault f
  | .refused r => .refused r

/-! ## Inputs -/

/-- One command, performed as one transaction (R3, R52, R176). A reserved OP uses no storage and reads no
operand (R64), so it cannot race and reset leaves nothing of it. -/
def transact (q : Issue) (s : State) : Host.Outcome State Fault Refusal :=
  match decode q.cmd with
  | .error _ => .next (if q.resetDuring then s else s.reject)
  | .ok i =>
    if s.raced i q.touched then .fault .race
    else if q.resetDuring then abandon i s
    else exec i s

/-- The caller provides a fresh buffer of `cap ≥ 1` words, none written (R171 item 1, log entry 25: DESIGN CHOICE,
safe). -/
def provideBuf (k cap : Nat) (shared : List (Nat × Nat)) (s : State) : Host.Outcome State Fault Refusal :=
  if cap = 0 then .refused .noSuchHostMove
  else .next (s.setStorageAt k
    { s.storageAt k with buf := { cap := cap, words := [] }, shared := shared })

/-- The caller writes a word of its buffer: `0 ≤ i < CAP` and a value in `[0, TYPE_MAX]` (R26, R171 item 2). -/
def hostWriteWord (k i : Nat) (v : Nat) (s : State) : Host.Outcome State Fault Refusal :=
  if i < (s.storageAt k).buf.cap ∧ v ≤ typeMax s.wb then
    .next (s.setStorageAt k { s.storageAt k with
      buf := { (s.storageAt k).buf with words := (s.storageAt k).buf.words.write i v } })
  else .refused .noSuchHostMove

/-- The caller writes a character of its text destination (R27). -/
def hostWriteChar (k j : Nat) (c : Char8) (s : State) : Host.Outcome State Fault Refusal :=
  .next (s.setStorageAt k { s.storageAt k with txt := Memory.write (s.storageAt k).txt j c })

/-- What one input does. Reset with no command in progress "has no effect" (R170). -/
def takeInput (inp : Input) (s : State) : Host.Outcome State Fault Refusal :=
  match inp with
  | .issue q => transact q { s with active := q.store }
  | .reset => .next s
  | .provide k cap shared => provideBuf k cap shared s
  | .writeWord k i v => hostWriteWord k i v s
  | .writeChar k j c => hostWriteChar k j c s

end Sys2Proof.Machine
end

