-- ==== Sys2Proof/Machine/Step.lean ====
section
/-!
DEFINITION. The step: the engine and its host take one input. Each command is one atomic step (R176, D29; log
entry 13: DESIGN CHOICE, safe), and nothing here is about cycles (log entry 21: DESIGN CHOICE, safe).
-/

namespace Sys2Proof.Machine

/-- Before an input is taken: it leaves the list, and no response is pending (R21 "not retained"). -/
def State.advance (s : State) (rest : List Input) : State := { s with inputs := rest, response := none }

/-- One step. With nothing issued the engine waits and nothing changes but that no response is pending
(log entry 10: DESIGN CHOICE, safe). -/
def step (s : State) : Host.Outcome State Fault Refusal :=
  match s.inputs with
  | [] => .next (s.advance [])
  | inp :: rest => takeInput inp (s.advance rest)

/-- The host issues the command of a table word next, on the storage in hand, under the issue discipline.
It stands for loading a program from outside (log entry 12: DESIGN CHOICE, safe). -/
def State.withFetchWord (s : State) (nbits w : Nat) : State :=
  { s with inputs := .issue { store := s.active, cmd := Command.ofTableWord nbits w, touched := [],
                              resetDuring := false } :: s.inputs }

end Sys2Proof.Machine
end

