-- ==== Sys2Proof/Machine/Assembler.lean ====
section
/-!
DEFINITION. The assembler's line form and the canonical spelling of a command (30_encoding.md R60, R67, R68).
Text only: no step reads it.

R67 leaves to the assembler what a blank line gives, which blanks separate words, whether a decimal may carry
a plus sign and the case of hexadecimal digits (log entry 11: DESIGN CHOICE, unsafe for a claim about the text only).
-/

namespace Sys2Proof.Machine

/-- Why the assembler refuses a line (R67). -/
inductive AsmError where
  /-- "another mnemonic" -/
  | unknownMnemonic
  /-- "the wrong number of operands" -/
  | wrongOperandCount
  /-- An operand that is neither a signed decimal nor a hexadecimal integer. -/
  | badOperand
  deriving DecidableEq, Repr

/-! ## Reading numbers -/

/-- The value of a digit, hexadecimal digits in either case. -/
def digitValue (c : Char) : Option Nat :=
  if 48 ≤ c.toNat ∧ c.toNat ≤ 57 then some (c.toNat - 48)
  else if 97 ≤ c.toNat ∧ c.toNat ≤ 102 then some (c.toNat - 87)
  else if 65 ≤ c.toNat ∧ c.toNat ≤ 70 then some (c.toNat - 55)
  else none

/-- The digits after those that gave `acc`, most significant first. -/
def parseDigits (base : Nat) (acc : Nat) : List Char → Option Nat
  | [] => some acc
  | c :: rest =>
    match digitValue c with
    | none => none
    | some d => if d < base then parseDigits base (acc * base + d) rest else none

/-- A number of at least one digit. -/
def parseNat (base : Nat) : List Char → Option Nat
  | [] => none
  | c :: rest => parseDigits base 0 (c :: rest)

/-- An operand: "a signed decimal integer, or a hexadecimal integer written `0x...`" (R67). -/
def parseInt : List Char → Option Int
  | '-' :: rest => (parseNat 10 rest).map fun n => -(n : Int)
  | '+' :: rest => (parseNat 10 rest).map fun n => (n : Int)
  | '0' :: 'x' :: rest => (parseNat 16 rest).map fun n => (n : Int)
  | cs => (parseNat 10 cs).map fun n => (n : Int)

/-! ## Reading a line -/

/-- A blank between words. -/
def isBlank (c : Char) : Bool := c == ' ' || c == '\t' || c == '\r'

/-- A letter as a capital: mnemonics are case-insensitive (R67). -/
def capital (c : Char) : Char :=
  if 97 ≤ c.toNat ∧ c.toNat ≤ 122 then Char.ofNat (c.toNat - 32) else c

/-- The words between commas. -/
def splitCommas : List Char → List (List Char)
  | [] => [[]]
  | c :: rest =>
    if c = ',' then [] :: splitCommas rest
    else
      match splitCommas rest with
      | [] => [[c]]
      | word :: words => (c :: word) :: words

/-- Without the blanks at both ends. -/
def trimBlanks (cs : List Char) : List Char := ((cs.dropWhile isBlank).reverse.dropWhile isBlank).reverse

/-- Every operand's value, or none if one is malformed. -/
def parseOperands : List (List Char) → Option (List Int)
  | [] => some []
  | w :: ws =>
    match parseInt (trimBlanks w), parseOperands ws with
    | some v, some vs => some (v :: vs)
    | _, _ => none

/-- The operand field: nothing, or operands separated by commas. -/
def operandField (cs : List Char) : Option (List Int) :=
  if trimBlanks cs = [] then some [] else parseOperands (splitCommas cs)

/-- The instruction of a mnemonic in capitals with its operands in R67's order. -/
def instrOf (mnemonic : List Char) (ops : List Int) : Except AsmError Instr :=
  if mnemonic = ['S', 'H', 'L'] then
    match ops with
    | [w, shift] => .ok (.shl w shift)
    | _ => .error .wrongOperandCount
  else if mnemonic = ['S', 'H', 'R'] then
    match ops with
    | [w, shift] => .ok (.shr w shift)
    | _ => .error .wrongOperandCount
  else if mnemonic = ['I', 'N', 'C'] then
    match ops with
    | [w] => .ok (.inc w)
    | _ => .error .wrongOperandCount
  else if mnemonic = ['D', 'E', 'C'] then
    match ops with
    | [w] => .ok (.dec w)
    | _ => .error .wrongOperandCount
  else if mnemonic = ['F', 'M', 'T', 'S'] then
    match ops with
    | [w] => .ok (.fmts w)
    | _ => .error .wrongOperandCount
  else if mnemonic = ['F', 'M', 'T', 'B'] then
    match ops with
    | [w, tcap] => .ok (.fmtb w tcap)
    | _ => .error .wrongOperandCount
  else .error .unknownMnemonic

/-- A line's text before its comment, which `;` starts (R67). -/
def beforeComment (line : List Char) : List Char := line.takeWhile (fun c => c != ';')

/-- One line of assembler text: the command it encodes (R67), or nothing for a line with no command. -/
def assemble (line : List Char) : Except AsmError (Option Command) :=
  let text := trimBlanks (beforeComment line)
  if text = [] then .ok none
  else
    match operandField (text.dropWhile (fun c => !isBlank c)) with
    | none => .error .badOperand
    | some ops =>
      match instrOf ((text.takeWhile (fun c => !isBlank c)).map capital) ops with
      | .error e => .error e
      | .ok i => .ok (some (encode i))

/-! ## Writing a line -/

/-- The decimal or hexadecimal digit of a value below 16, letters as capitals (as R60's `0xHH` spelling has them). -/
def digitChar (d : Nat) : Char := if d < 10 then Char.ofNat (d + 48) else Char.ofNat (d + 55)

/-- The decimal digits of `n`, before the text `rest`; `fuel > n` is enough. -/
def renderDigits : Nat → Nat → List Char → List Char
  | 0, _, rest => rest
  | fuel + 1, n, rest =>
    if n < 10 then digitChar n :: rest else renderDigits fuel (n / 10) (digitChar (n % 10) :: rest)

/-- A natural number in decimal. -/
def renderNat (n : Nat) : List Char := renderDigits (n + 1) n []

/-- A signed decimal integer. -/
def renderInt : Int → List Char
  | .ofNat n => renderNat n
  | .negSucc n => '-' :: renderNat (n + 1)

/-- The mnemonic (R61). -/
def mnemonicOf : Instr → List Char
  | .shl _ _ => ['S', 'H', 'L']
  | .shr _ _ => ['S', 'H', 'R']
  | .inc _ => ['I', 'N', 'C']
  | .dec _ => ['D', 'E', 'C']
  | .fmts _ => ['F', 'M', 'T', 'S']
  | .fmtb _ _ => ['F', 'M', 'T', 'B']

/-- The operand field of a line, in R67's order. -/
def renderOperands : Instr → List Char
  | .shl w shift => renderInt w ++ ',' :: ' ' :: renderInt shift
  | .shr w shift => renderInt w ++ ',' :: ' ' :: renderInt shift
  | .inc w => renderInt w
  | .dec w => renderInt w
  | .fmts w => renderInt w
  | .fmtb w tcap => renderInt w ++ ',' :: ' ' :: renderInt tcap

/-- An instruction as a line of assembler text, operands in decimal (R67). -/
def disassemble (i : Instr) : List Char := mnemonicOf i ++ ' ' :: renderOperands i

/-- An operand of the canonical spelling: `-` if the command does not read it (R60). -/
def spellOperand (o : Option Int) : List Char :=
  match o with
  | some v => renderInt v
  | none => ['-']

/-- The SHIFT and TCAP operands the command reads (R62); a reserved OP reads none, and a listing then shows
both as issued. -/
def readOperands (c : Command) : Option Int × Option Int :=
  match decode c with
  | .ok (.shl _ shift) => (some shift, none)
  | .ok (.shr _ shift) => (some shift, none)
  | .ok (.inc _) => (none, none)
  | .ok (.dec _) => (none, none)
  | .ok (.fmts _) => (none, none)
  | .ok (.fmtb _ tcap) => (none, some tcap)
  | .error _ => (some c.shift, some c.tcap)

/-- The canonical spelling `OP=0xHH W=<int> SHIFT=<int> TCAP=<int>` of a command (R60). -/
def spelling (c : Command) : List Char :=
  ['O', 'P', '=', '0', 'x'] ++ [digitChar (c.op.toNat / 16), digitChar (c.op.toNat % 16)]
    ++ [' ', 'W', '='] ++ renderInt c.w
    ++ [' ', 'S', 'H', 'I', 'F', 'T', '='] ++ spellOperand (readOperands c).1
    ++ [' ', 'T', 'C', 'A', 'P', '='] ++ spellOperand (readOperands c).2

end Sys2Proof.Machine
end

