-- ==== Sys2Proof/Safety.lean ====
section
/-!
DEFINITION. What counts as a safe run, in the terms the statements use: the invariant of the state, what a command
leaves alone, and what its storage holds.
-/

namespace Sys2Proof.Machine

/-! ## The invariant -/

/-- A caller's storage as R26 and R27 have it, for words of `wb` bits: CAP ≥ 1, every word below CAP and at most
TYPE_MAX, and both memories in canonical form. -/
def Storage.wf (wb : Nat) (st : Storage) : Prop :=
  1 ≤ st.buf.cap ∧ st.buf.words.wf ∧ (∀ c ∈ st.buf.words, c.1 < st.buf.cap ∧ c.2 ≤ typeMax wb) ∧
    Memory.wf st.txt

/-- The invariant: WB ≥ 1 (R6), the callers' storage in canonical form, each as R26 and R27 have it. -/
def State.Inv (s : State) : Prop :=
  1 ≤ s.wb ∧ Memory.wf s.stores ∧ ∀ e ∈ s.stores, e.2 ≠ Storage.initial ∧ e.2.wf s.wb

/-! ## Operands and contents -/

/-- The command's word count passes validation (R142 item 2). -/
def validLength (s : State) (w : Int) : Prop := 0 < w ∧ w ≤ (s.storage.buf.cap : Int)

/-- Every listed word is a WB-bit value (R26). -/
def WordsFit (wb : Nat) (ws : List Nat) : Prop := ∀ x ∈ ws, x ≤ typeMax wb

/-- Buf words `[lo, hi)` are written and equal the listed words at those indices. -/
def Buf.Agrees (b : Buf) (ws : List Nat) (lo hi : Nat) : Prop :=
  ∀ k, lo ≤ k → k < hi → ∃ v, ws[k]? = some v ∧ b.words.read k = some v

/-- Txt holds the listed characters from index 0 on. -/
def TxtStarts (txt : List Host.Cell) (cs : List Char8) : Prop :=
  ∀ j, j < cs.length → ∃ c, cs[j]? = some c ∧ Memory.read txt j = some c

/-- R142's order: the first error that applies to the command, for WB and CAP of the storage in hand. -/
def firstError (s : State) (c : Command) : Option Status :=
  if c.op = 0#8 ∨ 7 ≤ c.op.toNat then some .invalidCommand
  else if c.w ≤ 0 ∨ (s.storage.buf.cap : Int) < c.w then some .invalidLength
  else if (c.op = 1#8 ∨ c.op = 2#8) ∧ c.shift < 0 then some .invalidShiftAmount
  else if c.op = 6#8 ∧ c.tcap < c.w * s.wb + 1 then some .bufferTooSmall
  else none

/-! ## What a command leaves alone -/

/-- Outside the storage the command names and the response, nothing changed (R21, R25, R50): the parameters,
what the host does next, the storage in hand, the draws, and every other caller's storage. -/
def SameOutside (s t : State) : Prop :=
  t.params = s.params ∧ t.inputs = s.inputs ∧ t.active = s.active ∧ t.draws = s.draws ∧
    ∀ k, k ≠ s.active → t.storageAt k = s.storageAt k

/-- The command changed at most Buf words `[lo, hi)` (R26, R50): CAP, every other word, Txt, the sink and all
else are as before. -/
def OnlyWords (lo hi : Nat) (s t : State) : Prop :=
  SameOutside s t ∧ t.storage.buf.cap = s.storage.buf.cap ∧ t.storage.txt = s.storage.txt ∧
    t.storage.sink = s.storage.sink ∧ t.storage.shared = s.storage.shared ∧
    ∀ k, (k < lo ∨ hi ≤ k) → t.storage.buf.words.read k = s.storage.buf.words.read k

/-- The command changed at most Txt characters `[0, n)` (R50, R124): Buf, the sink, every other character and
all else are as before. -/
def OnlyChars (n : Nat) (s t : State) : Prop :=
  SameOutside s t ∧ t.storage.buf = s.storage.buf ∧ t.storage.sink = s.storage.sink ∧
    t.storage.shared = s.storage.shared ∧
    ∀ j, n ≤ j → Memory.read t.storage.txt j = Memory.read s.storage.txt j

/-- The command changed nothing but the sink, which received exactly the listed characters (R122). -/
def OnlySink (cs : List Char8) (s t : State) : Prop :=
  SameOutside s t ∧ t.storage.buf = s.storage.buf ∧ t.storage.txt = s.storage.txt ∧
    t.storage.shared = s.storage.shared ∧ t.storage.sink = s.storage.sink ++ cs

/-- The command returned this response, and the host's command index advanced by exactly 1 (R23, R30). -/
def Answered (s t : State) (r : Response) : Prop := t.response = some r ∧ t.index = s.index + 1

/-- The response of the latest step has this status. -/
def State.hasStatus (t : State) (e : Status) : Prop := ∃ r, t.response = some r ∧ r.status = e

/-! ## The walks of the sub-word passes, word by word

R82 and R85 give the sub-word pass as a loop that reads and writes Buf in place, in a fixed order. The meanings
compute it from the words read at once (`subWordPass`); these two loops are R82's and R85's text, and a
statement says that both leave the same buffer. -/

/-- `for k = 0 to W-2: Buf[k] <- trunc_WB(Buf[k] << shift2) | (Buf[k+1] >> (WB - shift2))`, then the boundary word
(R82): from word `k` on, with so many loop steps still to take. -/
def walkLeft (wb s2 w : Nat) : Nat → Nat → Buf → Except Fault Buf
  | 0, k, b =>
    match b.read w k with
    | .error f => .error f
    | .ok x => b.write w k (trunc wb (x <<< s2))
  | n + 1, k, b =>
    match b.read w k, b.read w (k + 1) with
    | .ok x, .ok y =>
      match b.write w k (trunc wb (x <<< s2) ||| (y >>> (wb - s2))) with
      | .ok b' => walkLeft wb s2 w n (k + 1) b'
      | .error f => .error f
    | .error f, _ => .error f
    | .ok _, .error f => .error f

/-- `for k = W-1 down to 1: Buf[k] <- (Buf[k] >> shift2) | trunc_WB(Buf[k-1] << (WB - shift2))`, then the boundary
word 0 (R85): from word `k` downward. -/
def walkRight (wb s2 w : Nat) : Nat → Buf → Except Fault Buf
  | 0, b =>
    match b.read w 0 with
    | .error f => .error f
    | .ok x => b.write w 0 (x >>> s2)
  | k + 1, b =>
    match b.read w (k + 1), b.read w k with
    | .ok x, .ok y =>
      match b.write w (k + 1) ((x >>> s2) ||| trunc wb (y <<< (wb - s2))) with
      | .ok b' => walkRight wb s2 w k b'
      | .error f => .error f
    | .error f, _ => .error f
    | .ok _, .error f => .error f

/-! ## Text -/

/-- Reading a text as a binary literal, most significant digit first (R121). -/
def readBinary (cs : List Char8) : Nat := cs.foldl (fun n c => 2 * n + (if c = chr true then 1 else 0)) 0

/-! ## Runs -/

/-- `n` times the same command, each on the state the one before left. -/
def execTimes (i : Instr) : Nat → State → Host.Outcome State Fault Refusal
  | 0, s => .next s
  | n + 1, s =>
    match exec i s with
    | .next t => execTimes i n t
    | .fault f => .fault f
    | .refused r => .refused r

/-- Two commands, the second on the state the first left. -/
def execBoth (i j : Instr) (s : State) : Host.Outcome State Fault Refusal :=
  match exec i s with
  | .next t => exec j t
  | .fault f => .fault f
  | .refused r => .refused r

/-- The two commands in order leave the value `v` in Buf words `[0, W)`. -/
def BothLeave (i j : Instr) (s : State) (w v : Nat) : Prop :=
  ∃ t, execBoth i j s = .next t ∧ t.storage.buf.Agrees (fromval s.wb v w) 0 w

/-- The command leaves the value `v` in Buf words `[0, W)`. -/
def Leaves (i : Instr) (s : State) (w v : Nat) : Prop :=
  ∃ t, exec i s = .next t ∧ t.storage.buf.Agrees (fromval s.wb v w) 0 w

/-- Buf words `[0, W)` hold the value `v`. -/
def HoldsValue (s : State) (w v : Nat) : Prop := s.storage.buf.Agrees (fromval s.wb v w) 0 w

/-- The command issued on the storage of number `k`. -/
def execOn (k : Nat) (i : Instr) (s : State) : Host.Outcome State Fault Refusal := exec i { s with active := k }

/-- The command in hand runs under the issue discipline (R174): no other agent touches any storage and reset
does not arrive while it runs. -/
def Issue.disciplined (q : Issue) : Prop := q.touched = [] ∧ q.resetDuring = false

end Sys2Proof.Machine
end

