-- ==== Sys2Proof/Certificates/Slice0/Obligations.lean ====
section
/-!
DEFINITION. The statements for the provers. Each docstring names the rules of spec/ it comes from; OBLIGATIONS.json
says which of them it states whole.
-/

open Sys2Proof Sys2Proof.Machine

/-! ## The state and the step -/

/-- Reset (10_state.md section 6, 70_reset_and_hazards.md section 1): the state right after reset meets the
invariant, no response is pending (R32) and the host's command index is 0 (R23). That no caller storage is
written then is the model's choice (log entry 4: DESIGN CHOICE, unsafe). -/
def Obligations.ResetStateMeetsTheInvariant : Prop :=
  State.reset.Inv ∧ State.reset.response = none ∧ State.reset.index = 0

/-- Every step keeps the invariant: WB ≥ 1 (R6), CAP ≥ 1, every stored word below CAP and at most TYPE_MAX
(R26), every memory in canonical form (the model's own, 20_memory.md and log entry 4: DESIGN CHOICE, unsafe). -/
def Obligations.StepKeepsTheInvariant : Prop :=
  ∀ s t : State, s.Inv → step s = .next t → t.Inv

/-- A command the host issues is performed by exec of the instruction it decodes to, on the storage it names, with
the issue taken off the host's list and no response pending (R52, R61). -/
def Obligations.StepPerformsTheIssuedCommand : Prop :=
  ∀ (s : State) (q : Issue) (rest : List Input) (i : Instr),
    s.inputs = .issue q :: rest → q.disciplined → decode q.cmd = .ok i →
    step s = exec i { s with inputs := rest, response := none, active := q.store }

/-- R23: the command index starts at 0 and advances by exactly 1 when a response is returned, and nothing else
changes it. -/
def Obligations.IndexCountsTheResponses : Prop :=
  State.reset.index = 0 ∧
    ∀ s t : State, step s = .next t → t.index = s.index + (if t.response.isSome then 1 else 0)

/-! ## Encoding -/

/-- R61: the OP value alone selects the command, for every value of the operands. -/
def Obligations.OpcodeSelectsTheCommand : Prop :=
  ∀ w shift tcap : Int,
    decode { op := 0b00000001#8, w := w, shift := shift, tcap := tcap } = .ok (.shl w shift) ∧
    decode { op := 0b00000010#8, w := w, shift := shift, tcap := tcap } = .ok (.shr w shift) ∧
    decode { op := 0b00000011#8, w := w, shift := shift, tcap := tcap } = .ok (.inc w) ∧
    decode { op := 0b00000100#8, w := w, shift := shift, tcap := tcap } = .ok (.dec w) ∧
    decode { op := 0b00000101#8, w := w, shift := shift, tcap := tcap } = .ok (.fmts w) ∧
    decode { op := 0b00000110#8, w := w, shift := shift, tcap := tcap } = .ok (.fmtb w tcap) ∧
    ∀ op : BitVec 8, (op = 0#8 ∨ 7 ≤ op.toNat) →
      decode { op := op, w := w, shift := shift, tcap := tcap } = .error (.reservedOp op)

/-- R62, R64: a command's operation depends only on OP and the operands R62's table says it reads; a reserved OP
reads none. -/
def Obligations.UnreadOperandsAreIgnored : Prop :=
  ∀ c d : Command, c.op = d.op →
    (1 ≤ c.op.toNat → c.op.toNat ≤ 6 → c.w = d.w) →
    (c.op = 1#8 ∨ c.op = 2#8 → c.shift = d.shift) →
    (c.op = 6#8 → c.tcap = d.tcap) → decode c = decode d

/-- R60, R63: laid on ports of any widths and read back with sign extension, an instruction decodes to itself exactly
when every operand it reads is a value of its port. -/
def Obligations.PortsCarryExactlyTheFittingInstructions : Prop :=
  ∀ (p : Ports) (i : Instr),
    decode ((encode i).toPorts p).toCommand = .ok i ↔ i.wellFormed p = true

/-- R67: the assembler reads every instruction back from its own line of text as the command that encodes it. That
the line writes its operands in decimal is one of the forms R67 allows. -/
def Obligations.AssemblerReadsBackEveryInstruction : Prop :=
  ∀ i : Instr, assemble (disassemble i) = .ok (some (encode i))

/-! ## Errors -/

/-- R64: a command with a reserved OP gets InvalidCommand (code 4), COUNT = 0 and WRAP = 0; it reads and writes
nothing in any storage, whatever its operands are. -/
def Obligations.ReservedOpIsRejected : Prop :=
  Status.invalidCommand.code = 4#3 ∧ ∀ (s : State) (q : Issue) (rest : List Input),
    s.inputs = .issue q :: rest → q.resetDuring = false → (q.cmd.op = 0#8 ∨ 7 ≤ q.cmd.op.toNat) →
    step s = .next { s with inputs := rest, active := q.store, index := s.index + 1,
                            response := some { status := .invalidCommand, count := 0, wrap := false } }

/-- R141, R145: every command with `W ≤ 0` or `W > CAP` answers InvalidLength and changes nothing. -/
def Obligations.InvalidLengthChangesNothing : Prop :=
  ∀ (i : Instr) (s : State), (i.w ≤ 0 ∨ (s.storage.buf.cap : Int) < i.w) →
    exec i s = .next { s with index := s.index + 1,
                              response := some { status := .invalidLength, count := 0, wrap := false } }

/-- R83, R86: SHL and SHR with a valid W and a negative SHIFT answer InvalidShiftAmount and change nothing. -/
def Obligations.NegativeShiftChangesNothing : Prop :=
  ∀ (w shift : Int) (s : State), validLength s w → shift < 0 →
    exec (.shl w shift) s = .next
      { s with index := s.index + 1, response := some { status := .invalidShiftAmount, count := 0, wrap := false } } ∧
    exec (.shr w shift) s = .next
      { s with index := s.index + 1, response := some { status := .invalidShiftAmount, count := 0, wrap := false } }

/-- R124: FMTB with a valid W and `TCAP < N + 1` answers BufferTooSmall and changes nothing. -/
def Obligations.TooSmallTextChangesNothing : Prop :=
  ∀ (w tcap : Int) (s : State), validLength s w → tcap < w * s.wb + 1 →
    exec (.fmtb w tcap) s = .next
      { s with index := s.index + 1, response := some { status := .bufferTooSmall, count := 0, wrap := false } }

/-- R140: a command that raises any error writes nothing; and, as the rule itself derives from R142, whether it
raises one depends only on the command, CAP and WB, never on what any storage holds. -/
def Obligations.ErrorsWriteNothing : Prop :=
  (∀ (q : Issue) (s t : State) (r : Response), q.resetDuring = false → transact q s = .next t →
    t.response = some r → r.status ≠ .ok → t = { s with response := some r, index := s.index + 1 }) ∧
  ∀ (q : Issue) (s s' : State) (e : Status), q.disciplined → e ≠ .ok →
    s.wb = s'.wb → s.storage.buf.cap = s'.storage.buf.cap →
    (∃ t, transact q s = .next t ∧ t.hasStatus e) → ∃ t', transact q s' = .next t' ∧ t'.hasStatus e

/-- R142: if an error applies, the engine reports exactly the first in the rule's order, with no other effect; if none
applies, the command performs its operation and, completing, returns OK. -/
def Obligations.CheckOrderFixesTheStatus : Prop :=
  ∀ (q : Issue) (s : State), q.disciplined →
    match firstError s q.cmd with
    | some e => transact q s = .next
        { s with index := s.index + 1, response := some { status := e, count := 0, wrap := false } }
    | none => ∃ i, decode q.cmd = .ok i ∧ transact q s = exec i s ∧ ∀ t, exec i s = .next t → t.hasStatus .ok

/-- R30, R141: a command that completes returns one response; an error has COUNT = 0 and WRAP = 0; a success has
COUNT = N for FMTS and FMTB and 0 otherwise, and WRAP = 1 exactly for an INC that started from all_ones_W or a
DEC that started from all_zero_W. STATUS is one of the codes 0 to 4. -/
def Obligations.ResponseFieldsFollowTheCommand : Prop :=
  ∀ (i : Instr) (s t : State), exec i s = .next t → ∃ r, Answered s t r ∧
    r.status.code.toNat ≤ 4 ∧ (r.status.code = 0#3 ↔ r.status = .ok) ∧
    (r.status ≠ .ok → r.count = 0 ∧ r.wrap = false) ∧
    (r.status = .ok → r.count =
      match i with
      | .fmts w | .fmtb w _ => w.toNat * s.wb
      | .shl _ _ | .shr _ _ | .inc _ | .dec _ => 0) ∧
    (r.status = .ok → (r.wrap = true ↔
      match i with
      | .inc w => ∀ k : Nat, (k : Int) < w → s.storage.buf.words.read k = some (typeMax s.wb)
      | .dec w => ∀ k : Nat, (k : Int) < w → s.storage.buf.words.read k = some 0
      | .shl _ _ | .shr _ _ | .fmts _ | .fmtb _ _ => False))

/-! ## Shifts -/

/-- R83, R87: SHL on a valid W and SHIFT ≥ 0 leaves `(v << SHIFT) mod 2^N` in Buf `[0, W)`, where the words SHL
reads were written and v is the value they have with any words in the places it does not read; it answers OK, 0,
0, and changes nothing else. That it reads only the words from shift1 on, and so completes where no others were
written, is the model's reading (log entry 24: DEDUCED, unsafe). -/
def Obligations.ShlShiftsTheValueLeft : Prop :=
  ∀ (s : State) (w shift : Nat) (ws : List Nat), s.Inv → validLength s w → ws.length = w → WordsFit s.wb ws →
    s.storage.buf.Agrees ws (shift / s.wb) w →
    ∃ t, exec (.shl w shift) s = .next t ∧ Answered s t { status := .ok, count := 0, wrap := false } ∧
      t.storage.buf.Agrees (fromval s.wb ((val s.wb ws <<< shift) % 2 ^ (w * s.wb)) w) 0 w ∧
      OnlyWords 0 w s t

/-- R86, R87: SHR on a valid W and SHIFT ≥ 0 leaves `v >> SHIFT` in Buf `[0, W)`, likewise. That it reads only the
words below W − shift1, and so completes where no others were written, is the model's reading (log entry 24:
DEDUCED, unsafe). -/
def Obligations.ShrShiftsTheValueRight : Prop :=
  ∀ (s : State) (w shift : Nat) (ws : List Nat), s.Inv → validLength s w → ws.length = w → WordsFit s.wb ws →
    s.storage.buf.Agrees ws 0 (w - shift / s.wb) →
    ∃ t, exec (.shr w shift) s = .next t ∧ Answered s t { status := .ok, count := 0, wrap := false } ∧
      t.storage.buf.Agrees (fromval s.wb (val s.wb ws >>> shift) w) 0 w ∧ OnlyWords 0 w s t

/-- R83, R86: a shift by 0 is a no-op: it completes and no storage changes. That it completes on words the caller
never wrote too is the model's choice (log entry 8: DESIGN CHOICE, unsafe). -/
def Obligations.ShiftByZeroChangesNoStorage : Prop :=
  ∀ (s : State) (w : Int), validLength s w →
    (∃ t, exec (.shl w 0) s = .next t ∧ Answered s t { status := .ok, count := 0, wrap := false } ∧
      SameOutside s t ∧ t.storage = s.storage) ∧
    ∃ t, exec (.shr w 0) s = .next t ∧ Answered s t { status := .ok, count := 0, wrap := false } ∧
      SameOutside s t ∧ t.storage = s.storage

/-- R88, its five laws, which the spec itself marks as derived from R87, for any W and WB, on a buffer whose words
`[0, W)` hold the value v. -/
def Obligations.ShiftLawsHold : Prop :=
  ∀ (s : State) (w v : Nat), s.Inv → validLength s w → v < 2 ^ (w * s.wb) → HoldsValue s w v →
    (Leaves (.shl w 0) s w v ∧ Leaves (.shr w 0) s w v) ∧
    (∀ S : Nat, w * s.wb ≤ S → Leaves (.shl w S) s w 0 ∧ Leaves (.shr w S) s w 0) ∧
    (∀ S : Nat, (S < w * s.wb → BothLeave (.shr w S) (.shl w S) s w (v - v % 2 ^ S)) ∧
      (w * s.wb ≤ S → BothLeave (.shr w S) (.shl w S) s w 0) ∧
      (BothLeave (.shr w S) (.shl w S) s w v ↔ v % 2 ^ S = 0)) ∧
    (∀ S : Nat, S < w * s.wb → BothLeave (.shl w S) (.shr w S) s w (v &&& (2 ^ (w * s.wb - S) - 1))) ∧
    ∀ a b : Nat,
      (∃ u, BothLeave (.shl w a) (.shl w b) s w u ∧ Leaves (.shl w (a + b : Nat)) s w u) ∧
      ∃ u, BothLeave (.shr w a) (.shr w b) s w u ∧ Leaves (.shr w (a + b : Nat)) s w u

/-- R81, R84: the result of the whole-word pass, for each k in `[0, W)`; no other word changes. The pass completes
when the words it reads were written. -/
def Obligations.WholeWordPassesMoveWords : Prop :=
  ∀ (w s1 : Nat) (b : Buf), w ≤ b.cap →
    ((∀ k, s1 ≤ k → k < w → (b.words.read k).isSome) → ∃ b', wholeWordLeft w s1 b = .ok b' ∧ b'.cap = b.cap ∧
      (∀ k, k < w → b'.words.read k = if k + s1 < w then b.words.read (k + s1) else some 0) ∧
      ∀ k, w ≤ k → b'.words.read k = b.words.read k) ∧
    ((∀ k, k + s1 < w → (b.words.read k).isSome) → ∃ b', wholeWordRight w s1 b = .ok b' ∧ b'.cap = b.cap ∧
      (∀ k, k < w → b'.words.read k = if s1 ≤ k then b.words.read (k - s1) else some 0) ∧
      ∀ k, w ≤ k → b'.words.read k = b.words.read k)

/-- R82, R85: the sub-word pass is skipped if shift2 = 0, and else leaves what the rule's loop leaves, which reads and
writes the words of Buf in place, one at a time and in the order the source fixes. -/
def Obligations.SubWordPassesWalkInTheFixedOrder : Prop :=
  (∀ (pass : List Nat → List Nat) (w : Nat) (b : Buf), subWordPass pass w 0 b = .ok b) ∧
  ∀ (wb s2 w : Nat) (b : Buf), 1 ≤ s2 → s2 < wb → 0 < w → w ≤ b.cap →
    (∀ k, k < w → (b.words.read k).isSome) →
    (∃ b1 b2, walkLeft wb s2 w (w - 1) 0 b = .ok b1 ∧ subWordPass (subWordLeft wb s2) w s2 b = .ok b2 ∧
      b1.cap = b2.cap ∧ ∀ k, b1.words.read k = b2.words.read k) ∧
    ∃ b1 b2, walkRight wb s2 w (w - 1) b = .ok b1 ∧ subWordPass (subWordRight wb s2) w s2 b = .ok b2 ∧
      b1.cap = b2.cap ∧ ∀ k, b1.words.read k = b2.words.read k

/-! ## Increment and decrement -/

/-- R100, and R101, which the spec marks as derived from it: INC on a valid W whose words hold v leaves `(v + 1) mod
2^N`; it answers OK with WRAP = 1 exactly when every word was TYPE_MAX, and changes nothing else. -/
def Obligations.IncAddsOneModuloTheWidth : Prop :=
  ∀ (s : State) (w : Nat) (ws : List Nat), s.Inv → validLength s w → ws.length = w → WordsFit s.wb ws →
    s.storage.buf.Agrees ws 0 w →
    ∃ t, exec (.inc w) s = .next t ∧
      Answered s t { status := .ok, count := 0, wrap := decide (∀ x ∈ ws, x = typeMax s.wb) } ∧
      t.storage.buf.Agrees (fromval s.wb ((val s.wb ws + 1) % 2 ^ (w * s.wb)) w) 0 w ∧ OnlyWords 0 w s t

/-- R102, and R103, which the spec marks as derived from it: DEC on a valid W whose words hold v leaves `(v + 2^N −
1) mod 2^N`; it answers OK with WRAP = 1 exactly when every word was 0, and changes nothing else. -/
def Obligations.DecSubtractsOneModuloTheWidth : Prop :=
  ∀ (s : State) (w : Nat) (ws : List Nat), s.Inv → validLength s w → ws.length = w → WordsFit s.wb ws →
    s.storage.buf.Agrees ws 0 w →
    ∃ t, exec (.dec w) s = .next t ∧
      Answered s t { status := .ok, count := 0, wrap := decide (∀ x ∈ ws, x = 0) } ∧
      t.storage.buf.Agrees (fromval s.wb ((val s.wb ws + 2 ^ (w * s.wb) - 1) % 2 ^ (w * s.wb)) w) 0 w ∧
      OnlyWords 0 w s t

/-- R100: where j is the largest index below W whose word is not TYPE_MAX, INC completes and writes exactly the
words `[j, W)`: word j absorbs the carry and the words to its right become 0. The words `[0, j)` need never have
been written. -/
def Obligations.IncStopsAtTheWordThatAbsorbs : Prop :=
  ∀ (s : State) (w j x : Nat), validLength s w → j < w → s.storage.buf.words.read j = some x →
    x ≠ typeMax s.wb → (∀ k, j < k → k < w → s.storage.buf.words.read k = some (typeMax s.wb)) →
    ∃ t, exec (.inc w) s = .next t ∧ Answered s t { status := .ok, count := 0, wrap := false } ∧
      t.storage.buf.words.read j = some (x + 1) ∧
      (∀ k, j < k → k < w → t.storage.buf.words.read k = some 0) ∧ OnlyWords j w s t

/-- R102: where j is the largest index below W whose word is not 0, DEC completes and writes exactly the words
`[j, W)`: word j absorbs the borrow and the words to its right become TYPE_MAX. -/
def Obligations.DecStopsAtTheWordThatAbsorbs : Prop :=
  ∀ (s : State) (w j x : Nat), validLength s w → j < w → s.storage.buf.words.read j = some x →
    x ≠ 0 → (∀ k, j < k → k < w → s.storage.buf.words.read k = some 0) →
    ∃ t, exec (.dec w) s = .next t ∧ Answered s t { status := .ok, count := 0, wrap := false } ∧
      t.storage.buf.words.read j = some (x - 1) ∧
      (∀ k, j < k → k < w → t.storage.buf.words.read k = some (typeMax s.wb)) ∧ OnlyWords j w s t

/-- R104, its four laws, which the spec itself marks as derived from R101 and R103, for every W and every buffer value
v: INC and DEC undo each other; all_ones_W and all_zero_W go to each other; INC k times adds `k mod 2^N`; WRAP = 1
exactly when the command crossed that boundary. -/
def Obligations.IncDecLawsHold : Prop :=
  ∀ (s : State) (w v : Nat), s.Inv → validLength s w → v < 2 ^ (w * s.wb) → HoldsValue s w v →
    (BothLeave (.inc w) (.dec w) s w v ∧ BothLeave (.dec w) (.inc w) s w v) ∧
    (v = 2 ^ (w * s.wb) - 1 → Leaves (.inc w) s w 0) ∧
    (v = 0 → Leaves (.dec w) s w (2 ^ (w * s.wb) - 1)) ∧
    (∀ k : Nat, ∃ t, execTimes (.inc w) k s = .next t ∧
      HoldsValue t w ((v + k % 2 ^ (w * s.wb)) % 2 ^ (w * s.wb))) ∧
    (∃ t r, exec (.inc w) s = .next t ∧ t.response = some r ∧ (r.wrap = true ↔ v = 2 ^ (w * s.wb) - 1)) ∧
    ∃ t r, exec (.dec w) s = .next t ∧ t.response = some r ∧ (r.wrap = true ↔ v = 0)

/-! ## Format -/

/-- R122: FMTS on a valid W whose words are written hands the N characters of the bit string and one newline to the
sink, answers OK with COUNT = N, and changes nothing else. -/
def Obligations.FmtsStreamsTheBitString : Prop :=
  ∀ (s : State) (w : Nat) (ws : List Nat), validLength s w → ws.length = w → s.storage.buf.Agrees ws 0 w →
    ∃ t, exec (.fmts w) s = .next t ∧ Answered s t { status := .ok, count := w * s.wb, wrap := false } ∧
      OnlySink ((List.range (w * s.wb)).map (fun j => chr (bitAt s.wb ws j)) ++ [0x0A#8]) s t

/-- R124: FMTB on a valid W whose words are written, with `TCAP ≥ N + 1` and no overlap, leaves the N characters of
the bit string and the terminator in Txt `[0, N]`, answers OK with COUNT = N, and changes nothing else. -/
def Obligations.FmtbWritesTheTerminatedBitString : Prop :=
  ∀ (s : State) (w tcap : Nat) (ws : List Nat), validLength s w → w * s.wb + 1 ≤ tcap → ws.length = w →
    (∀ p ∈ s.storage.shared, ¬ (p.1 < tcap ∧ p.2 < w)) → s.storage.buf.Agrees ws 0 w →
    ∃ t, exec (.fmtb w tcap) s = .next t ∧ Answered s t { status := .ok, count := w * s.wb, wrap := false } ∧
      TxtStarts t.storage.txt ((List.range (w * s.wb)).map (fun j => chr (bitAt s.wb ws j)) ++ [0x00#8]) ∧
      OnlyChars (w * s.wb + 1) s t

/-- R123: for identical Buf and W, the first N characters FMTS hands to the sink are Txt `[0, N)` as FMTB writes
them; both are `bits(Buf, W)`. -/
def Obligations.BothPresentationsGiveTheSameCharacters : Prop :=
  ∀ (s s' t t' : State) (w tcap : Int) (ws : List Nat), s.wb = s'.wb → s.storage.buf = s'.storage.buf →
    ws.length = w.toNat → s.storage.buf.Agrees ws 0 w.toNat →
    exec (.fmts w) s = .next t → t.hasStatus .ok → exec (.fmtb w tcap) s' = .next t' → t'.hasStatus .ok →
    ∀ j, j < w.toNat * s.wb → ∃ c, (t.storage.sink.drop s.storage.sink.length)[j]? = some c ∧
      Memory.read t'.storage.txt j = some c ∧ (bitString s.wb ws)[j]? = some c

/-- R121: the bit string has exactly N characters, character j is `chr(Buf[j div WB][WB − 1 − (j mod WB)])`; and the
properties the rule derives: each is '0' or '1', and read as a binary literal they are the value of the words. -/
def Obligations.BitStringReadsBackAsTheValue : Prop :=
  ∀ (wb : Nat) (ws : List Nat), 1 ≤ wb → WordsFit wb ws →
    (bitString wb ws).length = ws.length * wb ∧
    (∀ j, j < ws.length * wb → ∃ x, ws[j / wb]? = some x ∧
      (bitString wb ws)[j]? = some (chr (x.testBit (wb - 1 - j % wb)))) ∧
    (∀ c ∈ bitString wb ws, c = 0x30#8 ∨ c = 0x31#8) ∧
    readBinary (bitString wb ws) = val wb ws

/-- R42: position p names bit `WB − 1 − (p mod WB)` of word `p div WB`, which is, as the rule
derives from R11, bit `N − 1 − p` of the value. -/
def Obligations.PositionNamesOneBitOfTheValue : Prop :=
  ∀ (wb : Nat) (ws : List Nat) (p : Nat), 1 ≤ wb → WordsFit wb ws → p < ws.length * wb →
    ∃ x, ws[p / wb]? = some x ∧ bitAt wb ws p = x.testBit (wb - 1 - p % wb) ∧
      bitAt wb ws p = (val wb ws).testBit (ws.length * wb - 1 - p)

/-- R11: the value is the sum of the words at their weights and lies below `2^N`; word k of `fromval(v, W)` is
`(v >> (WB*(W−1−k))) & TYPE_MAX`; the two undo each other. -/
def Obligations.ValueAndWordsUndoEachOther : Prop :=
  ∀ (wb : Nat) (ws : List Nat) (v w : Nat), WordsFit wb ws →
    val wb ws = ((List.range ws.length).map fun k => ws.getD k 0 * 2 ^ (wb * (ws.length - 1 - k))).sum ∧
    val wb ws < 2 ^ (ws.length * wb) ∧
    (∀ k, k < w → (fromval wb v w)[k]? = some ((v >>> (wb * (w - 1 - k))) &&& typeMax wb)) ∧
    fromval wb (val wb ws) ws.length = ws ∧
    (v < 2 ^ (w * wb) → val wb (fromval wb v w) = v ∧ WordsFit wb (fromval wb v w))

/-! ## What a command reaches -/

/-- R26, R27, R28, R50: what every command that completes leaves alone: everything outside its storage, CAP, Buf
words `[W, CAP)`, Txt but for FMTB's `[0, N]`, the sink but for FMTS, and Buf for FMTS and FMTB. What the sink
held stays, in order (R49). -/
def Obligations.CommandReachesOnlyItsWindow : Prop :=
  ∀ (i : Instr) (s t : State), exec i s = .next t →
    SameOutside s t ∧ t.storage.buf.cap = s.storage.buf.cap ∧ t.storage.shared = s.storage.shared ∧
    (∀ k : Nat, i.w ≤ k → t.storage.buf.words.read k = s.storage.buf.words.read k) ∧
    (match i with
      | .shl _ _ | .shr _ _ | .inc _ | .dec _ =>
        t.storage.txt = s.storage.txt ∧ t.storage.sink = s.storage.sink
      | .fmts _ => t.storage.buf = s.storage.buf ∧ t.storage.txt = s.storage.txt ∧
        ∃ cs, t.storage.sink = s.storage.sink ++ cs
      | .fmtb w _ => t.storage.buf = s.storage.buf ∧ t.storage.sink = s.storage.sink ∧
        ∀ j : Nat, w * s.wb < j → Memory.read t.storage.txt j = Memory.read s.storage.txt j)

/-- R21: the result of a command depends only on its operands and the caller-owned storage it names: on two states
that agree on those, and whatever else they hold, the command answers alike. -/
def Obligations.ResultDependsOnlyOnOperandsAndStorage : Prop :=
  ∀ (i : Instr) (s s' t : State), s.params = s'.params → s.storage = s'.storage → exec i s = .next t →
    ∃ t', exec i s' = .next t' ∧ t'.response = t.response ∧ t'.storage = t.storage

/-- R26, R49, R50: no command reads Buf words `[W, CAP)`, what Txt holds or what the sink holds: on two states that
agree on WB, CAP, the words `[0, W)` and where Txt shares storage with Buf, the command answers alike, leaves the
same words in `[0, W)`, hands the same characters to the sink and, where it is an FMTB that succeeds, leaves the
same characters in Txt `[0, N]`. -/
def Obligations.CommandReadsOnlyItsWindow : Prop :=
  ∀ (i : Instr) (s s' t : State), s.wb = s'.wb → s.storage.buf.cap = s'.storage.buf.cap →
    s.storage.shared = s'.storage.shared →
    (∀ k : Nat, (k : Int) < i.w → s.storage.buf.words.read k = s'.storage.buf.words.read k) →
    exec i s = .next t →
    ∃ t', exec i s' = .next t' ∧ t'.response = t.response ∧
      (∀ k : Nat, (k : Int) < i.w → t'.storage.buf.words.read k = t.storage.buf.words.read k) ∧
      (∃ cs, t.storage.sink = s.storage.sink ++ cs ∧ t'.storage.sink = s'.storage.sink ++ cs) ∧
      match i with
      | .fmtb w _ => t.hasStatus .ok → ∀ j : Nat, (j : Int) ≤ w * s.wb →
          ∃ c, Memory.read t.storage.txt j = some c ∧ Memory.read t'.storage.txt j = some c
      | .shl _ _ | .shr _ _ | .inc _ | .dec _ | .fmts _ =>
          t.storage.txt = s.storage.txt ∧ t'.storage.txt = s'.storage.txt

/-- R52, R155: commands on distinct storage do not interact: done in either order, both complete alike, return the
same responses and leave every storage with the same contents. -/
def Obligations.CommandsOnDistinctStorageCommute : Prop :=
  ∀ (a b : Nat) (i j : Instr) (s ta tb : State), a ≠ b →
    execOn a i s = .next ta → execOn b j s = .next tb →
    ∃ tab tba, execOn b j ta = .next tab ∧ execOn a i tb = .next tba ∧
      tab.response = tb.response ∧ tba.response = ta.response ∧ tab.index = tba.index ∧
      ∀ k, tab.storageAt k = tba.storageAt k

/-! ## Stops -/

/-- R10, R177: a command always completes, but for a Buf word it reads that the caller never wrote (R171) and for an
FMTB whose Txt overlaps its Buf words (R58). No access ever falls outside the range R10 states. -/
def Obligations.EveryOtherCommandCompletes : Prop :=
  ∀ (i : Instr) (s : State),
    (∃ t, exec i s = .next t) ∨
    (exec i s = .fault .unwrittenWord ∧
      ∃ k : Nat, (k : Int) < i.w ∧ k < s.storage.buf.cap ∧ s.storage.buf.words.read k = none) ∨
    (exec i s = .refused .txtOverlapsBuf ∧ ∃ w tcap, i = .fmtb w tcap ∧
      ∃ p ∈ s.storage.shared, (p.1 : Int) < tcap ∧ (p.2 : Int) < w)

/-- R171 item 2: a read of a Buf word the caller never wrote faults, for the words each command reads: SHL the words
`[shift1, W)` and SHR the words `[0, W − shift1)` of a shift that is not 0, INC and DEC the words from W−1 down
to the first that absorbs, FMTS and FMTB all W words. Which words a shift reads is the model's reading (log entry 24:
DEDUCED, unsafe). -/
def Obligations.ReadOfAnUnwrittenWordFaults : Prop :=
  ∀ (s : State) (w k : Nat), validLength s w → k < w → s.storage.buf.words.read k = none →
    (∀ shift : Nat, 0 < shift → 1 ≤ s.wb → shift / s.wb ≤ k → exec (.shl w shift) s = .fault .unwrittenWord) ∧
    (∀ shift : Nat, 0 < shift → 1 ≤ s.wb → k + shift / s.wb < w →
      exec (.shr w shift) s = .fault .unwrittenWord) ∧
    ((∀ j, k < j → j < w → s.storage.buf.words.read j = some (typeMax s.wb)) →
      exec (.inc w) s = .fault .unwrittenWord) ∧
    ((∀ j, k < j → j < w → s.storage.buf.words.read j = some 0) → exec (.dec w) s = .fault .unwrittenWord) ∧
    exec (.fmts w) s = .fault .unwrittenWord ∧
    ∀ tcap : Nat, w * s.wb + 1 ≤ tcap → (∀ p ∈ s.storage.shared, ¬ (p.1 < tcap ∧ p.2 < w)) →
      exec (.fmtb w tcap) s = .fault .unwrittenWord

/-- R58: FMTB with valid operands is refused exactly when Txt `[0, TCAP)` shares storage with Buf `[0, W)`. That a
command with an error answers its error first is the model's choice (log entry 5: DESIGN CHOICE, unsafe). -/
def Obligations.OverlappingTextIsRefused : Prop :=
  ∀ (s : State) (w tcap : Int),
    exec (.fmtb w tcap) s = .refused .txtOverlapsBuf ↔
      validLength s w ∧ w * s.wb + 1 ≤ tcap ∧
        ∃ p ∈ s.storage.shared, (p.1 : Int) < tcap ∧ (p.2 : Int) < w

/-- R173, R174: an access of another agent to Buf words `[0, W)` of a running command, to the Txt of an FMTB or to
the sink of an FMTS is a race fault. -/
def Obligations.AccessToUsedStorageRaces : Prop :=
  ∀ (s : State) (q : Issue) (rest : List Input) (i : Instr) (l : Location),
    s.inputs = .issue q :: rest → decode q.cmd = .ok i → (q.store, l) ∈ q.touched →
    ((∃ k : Nat, l = .word k ∧ (k : Int) < i.w) ∨
     (∃ (j : Nat) (w tcap : Int), l = .char j ∧ i = .fmtb w tcap ∧ (j : Int) < tcap) ∨
     (∃ w, l = .sink ∧ i = .fmts w)) →
    step s = .fault .race

/-- R52, R155: accesses of other agents to other storage, and to words of this storage outside `[0, W)` that share no
storage with its Txt, never race: the command is performed as if there were none. -/
def Obligations.AccessElsewhereDoesNotRace : Prop :=
  ∀ (s : State) (q : Issue) (rest : List Input),
    s.inputs = .issue q :: rest →
    (∀ a ∈ q.touched, a.1 ≠ q.store ∨
      ∃ k : Nat, a.2 = .word k ∧ q.cmd.w ≤ (k : Int) ∧ ∀ p ∈ (s.storageAt q.store).shared, p.2 ≠ k) →
    step s = step { s with inputs := .issue { q with touched := [] } :: rest }

/-! ## Reset and the host -/

/-- R170: reset with no command in progress has no effect: only the input is taken, and no response is pending. -/
def Obligations.IdleResetHasNoEffect : Prop :=
  ∀ (s : State) (rest : List Input), s.inputs = .reset :: rest →
    step s = .next { s with inputs := rest, response := none }

/-- R170, R32: when reset arrives during an issued command that would have succeeded, the step completes and abandons
it: no response, the index and the parameters as before, every other caller's storage as before; each Buf word
`[0, W)` a SHL, SHR, INC or DEC may write holds some value in `[0, TYPE_MAX]`, each Txt character `[0, N]` of an FMTB
some character, the sink of an FMTS has received some leading part of what it hands over; and every other location
is unchanged. That the command is judged by what it would have done whole is the model's inference (log entry 9:
DEDUCED, safe), and so is that each of those words and characters, even one the command would not have reached,
holds a value after it (log entry 17: DEDUCED, unsafe). -/
def Obligations.ResetAbandonsTheCommand : Prop :=
  ∀ (s u : State) (q : Issue) (rest : List Input) (i : Instr),
    s.inputs = .issue q :: rest → q.touched = [] → q.resetDuring = true → decode q.cmd = .ok i →
    exec i { s with inputs := rest, response := none, active := q.store } = .next u → u.hasStatus .ok →
    ∃ t, step s = .next t ∧
      t.response = none ∧ t.index = s.index ∧ t.params = s.params ∧ t.inputs = rest ∧ t.active = q.store ∧
      (∀ k, k ≠ q.store → t.storageAt k = s.storageAt k) ∧
      t.storage.buf.cap = (s.storageAt q.store).buf.cap ∧ t.storage.shared = (s.storageAt q.store).shared ∧
      match i with
      | .shl w _ | .shr w _ | .inc w | .dec w =>
        t.storage.txt = (s.storageAt q.store).txt ∧ t.storage.sink = (s.storageAt q.store).sink ∧
          ∀ k : Nat, if (k : Int) < w then ∃ v, v ≤ typeMax s.wb ∧ t.storage.buf.words.read k = some v
            else t.storage.buf.words.read k = (s.storageAt q.store).buf.words.read k
      | .fmts _ => t.storage.buf = (s.storageAt q.store).buf ∧ t.storage.txt = (s.storageAt q.store).txt ∧
          ∃ n, (s.storageAt q.store).sink.length ≤ n ∧ t.storage.sink = u.storage.sink.take n
      | .fmtb w _ => t.storage.buf = (s.storageAt q.store).buf ∧ t.storage.sink = (s.storageAt q.store).sink ∧
          ∀ j : Nat, if (j : Int) ≤ w * s.wb then (Memory.read t.storage.txt j).isSome
            else Memory.read t.storage.txt j = Memory.read (s.storageAt q.store).txt j

/-- R140, R170: a command that would be an error, reserved OP included, has written nothing when reset arrives, and
returns no response. That an interrupted command is judged by what it would have done whole, so that one that would
be an error leaves everything unchanged, is the model's inference (log entry 9: DEDUCED, safe). -/
def Obligations.ResetDuringAnErrorChangesNothing : Prop :=
  ∀ (s u : State) (q : Issue) (rest : List Input) (e : Status),
    s.inputs = .issue q :: rest → q.touched = [] → q.resetDuring = true → e ≠ .ok →
    transact { q with resetDuring := false } { s with inputs := rest, response := none, active := q.store } = .next u →
    u.hasStatus e →
    step s = .next { s with inputs := rest, response := none, active := q.store }

/-- R26, R27, R171: what the caller writes to its buffer, a WB-bit value below CAP, is what that word then holds, and a
character it writes to its text destination is what that character then holds; nothing else of that storage and no
other storage changes. That a fresh buffer holds no written word and leaves Txt and the sink as they were, and that a
buffer of 0 words, a word past CAP and a word above TYPE_MAX are refused as no host's move, is the model's choice
(log entry 25: DESIGN CHOICE, safe). -/
def Obligations.CallerWritesItsOwnStorage : Prop :=
  (∀ (s : State) (k i v : Nat) (rest : List Input), s.inputs = .writeWord k i v :: rest →
    i < (s.storageAt k).buf.cap → v ≤ typeMax s.wb →
    ∃ t, step s = .next t ∧ (t.storageAt k).buf.words.read i = some v ∧
      (∀ j, j ≠ i → (t.storageAt k).buf.words.read j = (s.storageAt k).buf.words.read j) ∧
      (t.storageAt k).buf.cap = (s.storageAt k).buf.cap ∧ (t.storageAt k).txt = (s.storageAt k).txt ∧
      (t.storageAt k).sink = (s.storageAt k).sink ∧ (t.storageAt k).shared = (s.storageAt k).shared ∧
      ∀ l, l ≠ k → t.storageAt l = s.storageAt l) ∧
  (∀ (s : State) (k j : Nat) (c : Char8) (rest : List Input), s.inputs = .writeChar k j c :: rest →
    ∃ t, step s = .next t ∧ Memory.read (t.storageAt k).txt j = some c ∧
      (∀ m, m ≠ j → Memory.read (t.storageAt k).txt m = Memory.read (s.storageAt k).txt m) ∧
      (t.storageAt k).buf = (s.storageAt k).buf ∧ (t.storageAt k).sink = (s.storageAt k).sink ∧
      (t.storageAt k).shared = (s.storageAt k).shared ∧ ∀ l, l ≠ k → t.storageAt l = s.storageAt l) ∧
  (∀ (s : State) (k cap : Nat) (shared : List (Nat × Nat)) (rest : List Input),
    s.inputs = .provide k cap shared :: rest → 1 ≤ cap →
    ∃ t, step s = .next t ∧ (t.storageAt k).buf.cap = cap ∧ (∀ j, (t.storageAt k).buf.words.read j = none) ∧
      (t.storageAt k).txt = (s.storageAt k).txt ∧ (t.storageAt k).sink = (s.storageAt k).sink ∧
      (t.storageAt k).shared = shared ∧ ∀ l, l ≠ k → t.storageAt l = s.storageAt l) ∧
  (∀ (s : State) (k i v : Nat) (rest : List Input), s.inputs = .writeWord k i v :: rest →
    ((s.storageAt k).buf.cap ≤ i ∨ typeMax s.wb < v) → step s = .refused .noSuchHostMove) ∧
  ∀ (s : State) (k : Nat) (shared : List (Nat × Nat)) (rest : List Input),
    s.inputs = .provide k 0 shared :: rest → step s = .refused .noSuchHostMove

/-! ## Codes -/

/-- R120, R141: the character codes and the status codes, as their tables give them. The spec supplies the character
codes from general knowledge (log entry 22: PRESUMED, unsafe). -/
def Obligations.CodesAreTheTables : Prop :=
  chr false = 0x30#8 ∧ chr true = 0x31#8 ∧ newline = 0x0A#8 ∧ terminator = 0x00#8 ∧
    Status.ok.code = 0#3 ∧ Status.invalidLength.code = 1#3 ∧ Status.invalidShiftAmount.code = 2#3 ∧
    Status.bufferTooSmall.code = 3#3 ∧ Status.invalidCommand.code = 4#3
end

