-- ==== Sys2Proof/Laws/Assembler.lean ====
section
/-!
SUPPORT. Numbers written in decimal read back, and what the assembler makes of an operand field.
-/

namespace Sys2Proof.Machine

/-! ## Digits -/

/-- A digit or a minus sign: the characters a decimal is written with. -/
def IsNumberChar (c : Char) : Prop := (48 ≤ c.toNat ∧ c.toNat ≤ 57) ∨ c = '-'

theorem digitChar_toNat {d : Nat} (h : d < 10) : (digitChar d).toNat = d + 48 := by
  interval_cases d <;> rfl

theorem digitValue_digitChar {d : Nat} (h : d < 10) : digitValue (digitChar d) = some d := by
  interval_cases d <;> rfl

theorem parseDigits_renderDigits (fuel : Nat) : ∀ (n acc : Nat) (rest : List Char), n < fuel → ∃ k,
    parseDigits 10 acc (renderDigits fuel n rest) = parseDigits 10 (acc * 10 ^ k + n) rest := by
  induction fuel with
  | zero => intro n acc rest h; omega
  | succ fuel ih =>
    intro n acc rest h
    unfold renderDigits
    split
    · next hn =>
      refine ⟨1, ?_⟩
      rw [parseDigits, digitValue_digitChar hn]
      simp [hn]
    · next hn =>
      obtain ⟨k, hk⟩ := ih (n / 10) acc (digitChar (n % 10) :: rest) (by omega)
      refine ⟨k + 1, ?_⟩
      rw [hk, parseDigits, digitValue_digitChar (Nat.mod_lt _ (by omega))]
      simp only [show n % 10 < 10 from Nat.mod_lt _ (by omega), if_true]
      congr 1
      rw [pow_succ]
      have := Nat.div_add_mod n 10
      have e : (acc * 10 ^ k + n / 10) * 10 + n % 10 = acc * (10 ^ k * 10) + (10 * (n / 10) + n % 10) := by ring
      rw [e, this]

theorem renderDigits_spec (fuel : Nat) : ∀ (n : Nat) (rest : List Char), n < fuel → ∃ d ds,
    renderDigits fuel n rest = d :: ds ++ rest ∧ ∀ c ∈ d :: ds, 48 ≤ c.toNat ∧ c.toNat ≤ 57 := by
  induction fuel with
  | zero => intro n rest h; omega
  | succ fuel ih =>
    intro n rest h
    unfold renderDigits
    split
    · next hn => exact ⟨_, [], rfl, by simp [digitChar_toNat hn]; omega⟩
    · next hn =>
      obtain ⟨d, ds, e, hd⟩ := ih (n / 10) (digitChar (n % 10) :: rest) (by omega)
      refine ⟨d, ds ++ [digitChar (n % 10)], by rw [e]; simp, ?_⟩
      intro c hc
      have hm : n % 10 < 10 := Nat.mod_lt _ (by omega)
      simp only [List.mem_cons, List.mem_append, List.not_mem_nil, or_false] at hc
      rcases hc with rfl | hc | rfl
      · exact hd _ (by simp)
      · exact hd _ (by simp [hc])
      · rw [digitChar_toNat hm]; omega

theorem renderNat_spec (n : Nat) : ∃ d ds, renderNat n = d :: ds ∧ (∀ c ∈ d :: ds, 48 ≤ c.toNat ∧
    c.toNat ≤ 57) ∧ parseNat 10 (d :: ds) = some n := by
  obtain ⟨d, ds, e, h⟩ := renderDigits_spec (n+1) n [] (by omega)
  rw [List.append_nil] at e
  refine ⟨d, ds, e, h, ?_⟩
  obtain ⟨k, hk⟩ := parseDigits_renderDigits (n+1) n 0 [] (by omega)
  rw [parseNat, ← e, hk]
  simp [parseDigits]

theorem parseInt_digits {d : Char} {ds : List Char} (h : ∀ c ∈ d :: ds, 48 ≤ c.toNat ∧ c.toNat ≤ 57) :
   parseInt (d :: ds) = (parseNat 10 (d :: ds)).map fun n => (n : Int) := by
  have h1 := h d (by simp)
  have hm : d ≠ '-' := by rintro rfl; revert h1; decide
  have hp : d ≠ '+' := by rintro rfl; revert h1; decide
  unfold parseInt
  split
  · next heq => cases heq; exact absurd rfl hm
  · next heq => cases heq; exact absurd rfl hp
  · next rest heq =>
    cases heq
    have := (h 'x' (by simp)).2
    exact absurd this (by decide)
  · rfl

theorem renderInt_spec (v : Int) : renderInt v ≠ [] ∧ (∀ c ∈ renderInt v, IsNumberChar c) ∧
    parseInt (renderInt v) = some v := by
  cases v with
  | ofNat n =>
    obtain ⟨d, ds, e, h, hp⟩ := renderNat_spec n
    simp only [renderInt, e]
    refine ⟨by simp, fun c hc => .inl (h c hc), ?_⟩
    rw [parseInt_digits h, hp]; rfl
  | negSucc n =>
    obtain ⟨d, ds, e, h, hp⟩ := renderNat_spec (n+1)
    simp only [renderInt, e]
    refine ⟨by simp, fun c hc => ?_, ?_⟩
    · rcases List.mem_cons.1 hc with rfl | hc
      · exact .inr rfl
      · exact .inl (h c hc)
    · simp only [parseInt, hp]; rfl

theorem plain_avoids {c : Char} (h : IsNumberChar c) : isBlank c = false ∧ c ≠ ',' ∧ c ≠ ';' := by
  rcases h with h | rfl
  · refine ⟨?_, ?_, ?_⟩
    · by_contra hb
      simp only [isBlank, Bool.not_eq_false, Bool.or_eq_true, beq_iff_eq] at hb
      rcases hb with (rfl | rfl) | rfl <;> revert h <;> decide
    · rintro rfl; revert h; decide
    · rintro rfl; revert h; decide
  · decide

/-! ## Blanks and commas -/

theorem dropWhile_eq_self {p : Char → Bool} {l : List Char} (h : ∀ c ∈ l, p c = false) : l.dropWhile p = l := by
  cases l with
  | nil => rfl
  | cons c l => simp [List.dropWhile, h c (by simp)]

theorem trimBlanks_eq_self {l : List Char} (h : ∀ c ∈ l, isBlank c = false) : trimBlanks l = l := by
  unfold trimBlanks
  rw [dropWhile_eq_self h, dropWhile_eq_self (fun c hc => h c (List.mem_reverse.1 hc)), List.reverse_reverse]

theorem trimBlanks_blank {l : List Char} (h : ∀ c ∈ l, isBlank c = false) : trimBlanks (' ' :: l) = l := by
  have : trimBlanks (' ' :: l) = trimBlanks l := by simp [trimBlanks, List.dropWhile, isBlank]
  rw [this, trimBlanks_eq_self h]

theorem trimBlanks_ends {a z : Char} {m : List Char} (ha : isBlank a = false) (hz : isBlank z = false) :
    trimBlanks (a :: m ++ [z]) = a :: m ++ [z] := by
  simp [trimBlanks, ha, hz]

theorem splitCommas_one {l : List Char} (h : ∀ c ∈ l, c ≠ ',') : splitCommas l = [l] := by
  induction l with
  | nil => rfl
  | cons c l ih =>
    simp [splitCommas, h c (by simp), ih (fun c hc => h c (by simp [hc]))]

theorem splitCommas_two {l r : List Char} (h : ∀ c ∈ l, c ≠ ',') (hr : ∀ c ∈ r, c ≠ ',') :
    splitCommas (l ++ ',' :: r) = [l, r] := by
  induction l with
  | nil => simp [splitCommas, splitCommas_one hr]
  | cons c l ih =>
    simp [splitCommas, h c (by simp), ih (fun c hc => h c (by simp [hc]))]

/-! ## Operand fields -/

theorem operandField_one (v : Int) : operandField (' ' :: renderInt v) = some [v] := by
  obtain ⟨h1, h2, h3⟩ := renderInt_spec v
  have hb : ∀ c ∈ renderInt v, isBlank c = false := fun c hc => (plain_avoids (h2 c hc)).1
  unfold operandField
  rw [trimBlanks_blank hb, if_neg h1, splitCommas_one (by
    intro c hc
    rcases List.mem_cons.1 hc with rfl | hc
    · decide
    · exact (plain_avoids (h2 c hc)).2.1)]
  simp [parseOperands, trimBlanks_blank hb, h3]

theorem operandField_two (v u : Int) : operandField (' ' :: (renderInt v ++ ',' :: ' ' :: renderInt u))
    = some [v, u] := by
  obtain ⟨h1, h2, h3⟩ := renderInt_spec v
  obtain ⟨g1, g2, g3⟩ := renderInt_spec u
  have hb : ∀ c ∈ renderInt v, isBlank c = false := fun c hc => (plain_avoids (h2 c hc)).1
  have gb : ∀ c ∈ renderInt u, isBlank c = false := fun c hc => (plain_avoids (g2 c hc)).1
  unfold operandField
  have hs : splitCommas (' ' :: (renderInt v ++ ',' :: ' ' :: renderInt u)) = [' ' :: renderInt v,
      ' ' :: renderInt u] := by
    rw [← List.cons_append]
    apply splitCommas_two
    · intro c hc
      rcases List.mem_cons.1 hc with rfl | hc
      · decide
      · exact (plain_avoids (h2 c hc)).2.1
    · intro c hc
      rcases List.mem_cons.1 hc with rfl | hc
      · decide
      · exact (plain_avoids (g2 c hc)).2.1
  have hne : trimBlanks (' ' :: (renderInt v ++ ',' :: ' ' :: renderInt u)) ≠ [] := by
    obtain ⟨d, ds, e⟩ := List.exists_cons_of_ne_nil h1
    have hd := hb d (by rw [e]; simp)
    rw [e]
    intro hc
    have : trimBlanks (' ' :: (d :: ds ++ ',' :: ' ' :: renderInt u))
        = trimBlanks (d :: ds ++ ',' :: ' ' :: renderInt u) := by
      simp [trimBlanks, List.dropWhile, isBlank]
    rw [this] at hc
    simp only [trimBlanks, List.cons_append, List.dropWhile, hd, List.reverse_eq_nil_iff] at hc
    have := List.dropWhile_eq_nil_iff.1 hc d (by simp)
    rw [hd] at this; cases this
  rw [if_neg hne, hs]
  simp [parseOperands, trimBlanks_blank hb, trimBlanks_blank gb, h3, g3]

end Sys2Proof.Machine
end

