-- ==== Sys2Proof/Laws/State.lean ====
section
/-!
SUPPORT. One lemma per field per update of the state, so that no later proof unfolds a record update.
-/

namespace Sys2Proof.Machine

/-! ## respond -/

section respond
variable (s : State) (r : Response) (k : Nat)
@[simp] theorem respond_params : (s.respond r).params = s.params := rfl
@[simp] theorem respond_wb : (s.respond r).wb = s.wb := rfl
@[simp] theorem respond_stores : (s.respond r).stores = s.stores := rfl
@[simp] theorem respond_active : (s.respond r).active = s.active := rfl
@[simp] theorem respond_inputs : (s.respond r).inputs = s.inputs := rfl
@[simp] theorem respond_response : (s.respond r).response = some r := rfl
@[simp] theorem respond_index : (s.respond r).index = s.index + 1 := rfl
@[simp] theorem respond_draws : (s.respond r).draws = s.draws := rfl
@[simp] theorem respond_storageAt : (s.respond r).storageAt k = s.storageAt k := rfl
@[simp] theorem respond_storage : (s.respond r).storage = s.storage := rfl
end respond

@[simp] theorem raise_eq (s : State) (e : Status) : s.raise e = s.respond (Response.failure e) := rfl
@[simp] theorem reject_eq (s : State) : s.reject = s.respond (Response.failure .invalidCommand) := rfl

@[simp] theorem failure_status (e : Status) : (Response.failure e).status = e := rfl
@[simp] theorem failure_count (e : Status) : (Response.failure e).count = 0 := rfl
@[simp] theorem failure_wrap (e : Status) : (Response.failure e).wrap = false := rfl
@[simp] theorem success_status (n : Nat) (b : Bool) : (Response.success n b).status = .ok := rfl
@[simp] theorem success_count (n : Nat) (b : Bool) : (Response.success n b).count = n := rfl
@[simp] theorem success_wrap (n : Nat) (b : Bool) : (Response.success n b).wrap = b := rfl

/-! ## advance -/

section advance
variable (s : State) (rest : List Input) (k : Nat)
@[simp] theorem advance_params : (s.advance rest).params = s.params := rfl
@[simp] theorem advance_wb : (s.advance rest).wb = s.wb := rfl
@[simp] theorem advance_stores : (s.advance rest).stores = s.stores := rfl
@[simp] theorem advance_active : (s.advance rest).active = s.active := rfl
@[simp] theorem advance_inputs : (s.advance rest).inputs = rest := rfl
@[simp] theorem advance_response : (s.advance rest).response = none := rfl
@[simp] theorem advance_index : (s.advance rest).index = s.index := rfl
@[simp] theorem advance_draws : (s.advance rest).draws = s.draws := rfl
@[simp] theorem advance_storageAt : (s.advance rest).storageAt k = s.storageAt k := rfl
@[simp] theorem advance_storage : (s.advance rest).storage = s.storage := rfl
end advance

/-! ## setStorageAt and setStorage -/

section setStorage
variable (s : State) (k : Nat) (st : Storage)
@[simp] theorem setStorageAt_params : (s.setStorageAt k st).params = s.params := rfl
@[simp] theorem setStorageAt_wb : (s.setStorageAt k st).wb = s.wb := rfl
@[simp] theorem setStorageAt_active : (s.setStorageAt k st).active = s.active := rfl
@[simp] theorem setStorageAt_inputs : (s.setStorageAt k st).inputs = s.inputs := rfl
@[simp] theorem setStorageAt_response : (s.setStorageAt k st).response = s.response := rfl
@[simp] theorem setStorageAt_index : (s.setStorageAt k st).index = s.index := rfl
@[simp] theorem setStorageAt_draws : (s.setStorageAt k st).draws = s.draws := rfl
@[simp] theorem setStorage_params : (s.setStorage st).params = s.params := rfl
@[simp] theorem setStorage_wb : (s.setStorage st).wb = s.wb := rfl
@[simp] theorem setStorage_active : (s.setStorage st).active = s.active := rfl
@[simp] theorem setStorage_inputs : (s.setStorage st).inputs = s.inputs := rfl
@[simp] theorem setStorage_response : (s.setStorage st).response = s.response := rfl
@[simp] theorem setStorage_index : (s.setStorage st).index = s.index := rfl
@[simp] theorem setStorage_draws : (s.setStorage st).draws = s.draws := rfl
end setStorage

/-! ## choosing the storage a command names -/

section active
variable (s : State) (k j : Nat)
@[simp] theorem withActive_storageAt : State.storageAt { s with active := k } j = s.storageAt j := rfl
@[simp] theorem withActive_storage : State.storage { s with active := k } = s.storageAt k := rfl
@[simp] theorem withActive_wb : State.wb { s with active := k } = s.wb := rfl
end active

/-! ## counting draws -/

section draws
variable (s : State) (n k : Nat)
@[simp] theorem withDraws_storageAt : State.storageAt { s with draws := n } k = s.storageAt k := rfl
@[simp] theorem withDraws_storage : State.storage { s with draws := n } = s.storage := rfl
@[simp] theorem withDraws_wb : State.wb { s with draws := n } = s.wb := rfl
end draws

end Sys2Proof.Machine
end

