-- ==== Sys2Proof/Laws/Memory.lean ====
section
/-!
SUPPORT. Storage by index: a read after a write, and that every operation keeps the canonical form.
-/

namespace Sys2Proof.Machine

variable {α : Type}

@[simp] theorem Memory.read_nil (k : Nat) : Memory.read ([] : Memory α) k = none := rfl

@[simp] theorem Memory.read_write_same (m : Memory α) (k : Nat) (v : α) :
    Memory.read (Memory.write m k v) k = some v := by
  induction m with
  | nil => simp [Memory.write, Memory.read]
  | cons c m ih =>
    obtain ⟨a, x⟩ := c
    simp only [Memory.write]
    split
    · simp [Memory.read]
    · split <;> simp_all [Memory.read]

theorem Memory.read_write_of_ne (m : Memory α) {k j : Nat} (v : α) (h : j ≠ k) :
    Memory.read (Memory.write m k v) j = Memory.read m j := by
  induction m with
  | nil => simp [Memory.write, Memory.read, h.symm]
  | cons c m ih =>
    obtain ⟨a, x⟩ := c
    simp only [Memory.write]
    split
    · simp [Memory.read, h.symm]
    · split
      · next h' => subst h'; simp [Memory.read, h.symm]
      · simp [Memory.read, ih]

theorem Memory.read_write (m : Memory α) (k j : Nat) (v : α) :
    Memory.read (Memory.write m k v) j = if j = k then some v else Memory.read m j := by
  split
  · next h => subst h; simp
  · next h => exact Memory.read_write_of_ne m v h

@[simp] theorem Memory.read_erase_same (m : Memory α) (k : Nat) : Memory.read (Memory.erase m k) k = none := by
  induction m with
  | nil => rfl
  | cons c m ih =>
    obtain ⟨a, x⟩ := c
    by_cases h : a = k
    · simpa [Memory.erase, h] using ih
    · simpa [Memory.erase, h, Memory.read] using ih

theorem Memory.read_erase_of_ne (m : Memory α) {k j : Nat} (h : j ≠ k) :
    Memory.read (Memory.erase m k) j = Memory.read m j := by
  induction m with
  | nil => rfl
  | cons c m ih =>
    obtain ⟨a, x⟩ := c
    by_cases ha : a = k
    · subst ha
      simpa [Memory.erase, Memory.read, h.symm] using ih
    · simpa [Memory.erase, ha, Memory.read] using congrArg (if a = j then some x else ·) ih

/-- Membership after a write: the written cell, or a cell that was there. -/
theorem Memory.mem_write {m : Memory α} {k : Nat} {v : α} {c : Nat × α}
    (h : c ∈ Memory.write m k v) : c = (k, v) ∨ c ∈ m := by
  induction m with
  | nil => simpa [Memory.write] using h
  | cons d m ih =>
    obtain ⟨a, x⟩ := d
    simp only [Memory.write] at h
    split at h
    · simpa using h
    · split at h
      · rcases List.mem_cons.1 h with h | h
        · exact .inl h
        · exact .inr (List.mem_cons_of_mem _ h)
      · rcases List.mem_cons.1 h with h | h
        · exact .inr (h ▸ List.mem_cons_self)
        · exact (ih h).imp id (List.mem_cons_of_mem _)

theorem Memory.wf_write {m : Memory α} (h : Memory.wf m) (k : Nat) (v : α) :
    Memory.wf (Memory.write m k v) := by
  induction m with
  | nil => simp [Memory.write, Memory.wf]
  | cons d m ih =>
    obtain ⟨a, x⟩ := d
    obtain ⟨hd, hm⟩ := List.pairwise_cons.1 h
    simp only [Memory.write]
    split
    · next hk =>
      refine List.pairwise_cons.2 ⟨fun c hc => ?_, h⟩
      rcases List.mem_cons.1 hc with rfl | hc
      · exact hk
      · exact Nat.lt_trans hk (hd c hc)
    · split
      · next hk => subst hk; exact List.pairwise_cons.2 ⟨hd, hm⟩
      · next h1 h2 =>
        refine List.pairwise_cons.2 ⟨fun c hc => ?_, ih hm⟩
        rcases Memory.mem_write hc with rfl | hc
        · show a < k; omega
        · exact hd c hc

theorem Memory.wf_erase {m : Memory α} (h : Memory.wf m) (k : Nat) : Memory.wf (Memory.erase m k) :=
  List.Pairwise.filter _ h

theorem Memory.wf_fill {m : Memory α} (f : Nat → α) (h : Memory.wf m) (n : Nat) :
    Memory.wf (Memory.fill f n m) := by
  induction n with
  | zero => exact h
  | succ n ih => exact Memory.wf_write ih n (f n)

theorem Memory.read_fill (f : Nat → α) (m : Memory α) (n j : Nat) :
    Memory.read (Memory.fill f n m) j = if j < n then some (f j) else Memory.read m j := by
  induction n with
  | zero => simp [Memory.fill]
  | succ n ih =>
    rw [Memory.fill, Memory.read_write, ih]
    by_cases h : j = n
    · subst h; simp
    · simp only [h, if_false]
      have : (j < n) ↔ (j < n + 1) := by omega
      simp [this]

theorem Memory.mem_fill {m : Memory α} {f : Nat → α} {n : Nat} {c : Nat × α}
    (h : c ∈ Memory.fill f n m) : (c.1 < n ∧ c.2 = f c.1) ∨ c ∈ m := by
  induction n with
  | zero => exact .inr h
  | succ n ih =>
    rcases Memory.mem_write h with rfl | h
    · exact .inl ⟨Nat.lt_succ_self n, rfl⟩
    · rcases ih h with ⟨h1, h2⟩ | h
      · exact .inl ⟨Nat.lt_succ_of_lt h1, h2⟩
      · exact .inr h

/-- What a read answers stands in the list. -/
theorem Memory.mem_of_read {m : Memory α} {k : Nat} {v : α} (h : Memory.read m k = some v) : (k, v) ∈ m := by
  induction m with
  | nil => simp at h
  | cons d m ih =>
    obtain ⟨a, x⟩ := d
    simp only [Memory.read] at h
    split at h
    · next ha => subst ha; cases h; exact List.mem_cons_self
    · exact List.mem_cons_of_mem _ (ih h)

/-! ## A caller's storage -/

@[simp] theorem storageAt_setStorageAt_same (s : State) (k : Nat) (st : Storage) :
    (s.setStorageAt k st).storageAt k = st := by
  unfold State.setStorageAt State.storageAt
  split <;> simp_all

theorem storageAt_setStorageAt_of_ne (s : State) {k j : Nat} (st : Storage) (h : j ≠ k) :
    (s.setStorageAt k st).storageAt j = s.storageAt j := by
  unfold State.setStorageAt State.storageAt
  split
  · simp [Memory.read_erase_of_ne _ h]
  · simp [Memory.read_write_of_ne _ _ h]

@[simp] theorem storage_setStorage (s : State) (st : Storage) : (s.setStorage st).storage = st :=
  storageAt_setStorageAt_same s s.active st

theorem storageAt_setStorage_of_ne (s : State) {k : Nat} (st : Storage) (h : k ≠ s.active) :
    (s.setStorage st).storageAt k = s.storageAt k :=
  storageAt_setStorageAt_of_ne s st h

@[simp] theorem setBuf_storage (s : State) (b : Buf) : (s.setBuf b).storage = { s.storage with buf := b } :=
  storage_setStorage s _

@[simp] theorem setTxt_storage (s : State) (x : List Host.Cell) :
    (s.setTxt x).storage = { s.storage with txt := x } :=
  storage_setStorage s _

@[simp] theorem sinkPut_storage (s : State) (cs : List Char8) :
    (s.sinkPut cs).storage = { s.storage with sink := s.storage.sink ++ cs } :=
  storage_setStorage s _

@[simp] theorem setBuf_wb (s : State) (b : Buf) : (s.setBuf b).wb = s.wb := rfl
@[simp] theorem setTxt_wb (s : State) (x : List Host.Cell) : (s.setTxt x).wb = s.wb := rfl
@[simp] theorem sinkPut_wb (s : State) (cs : List Char8) : (s.sinkPut cs).wb = s.wb := rfl
@[simp] theorem setBuf_index (s : State) (b : Buf) : (s.setBuf b).index = s.index := rfl
@[simp] theorem setTxt_index (s : State) (x : List Host.Cell) : (s.setTxt x).index = s.index := rfl
@[simp] theorem sinkPut_index (s : State) (cs : List Char8) : (s.sinkPut cs).index = s.index := rfl

/-! ## What reset leaves (R170) -/

@[simp] theorem drawWords_storage (s : State) (w : Nat) :
    (s.drawWords w).storage = { s.storage with buf := { s.storage.buf with
      words := Memory.fill (fun k => trunc s.wb (Config.freeDraw (s.draws + k))) w s.storage.buf.words } } :=
  setBuf_storage s _

@[simp] theorem drawChars_storage (s : State) (n : Nat) :
    (s.drawChars n).storage = { s.storage with
      txt := Memory.fill (fun j => BitVec.ofNat 8 (Config.freeDraw (s.draws + j))) (n + 1) s.storage.txt } :=
  setTxt_storage s _

@[simp] theorem drawSink_storage (s t : State) (n : Nat) :
    (s.drawSink t n).storage = { s.storage with
      sink := t.storage.sink.take (s.storage.sink.length + Config.freeDraw s.draws % (n + 2)) } :=
  storage_setStorage s _

/-- Replacing the storage in hand, and answering, changes nothing outside it. -/
theorem sameOutside_setStorage (s : State) (st : Storage) (r : Response) :
    SameOutside s ((s.setStorage st).respond r) :=
  ⟨rfl, rfl, rfl, rfl, fun _ h => storageAt_setStorage_of_ne s st h⟩

end Sys2Proof.Machine
end

