-- ==== Sys2Proof/Laws/Words.lean ====
section
/-!
SUPPORT. Nat sequences as numbers: the value of a sequence (R11), its bits (R42), and what each pass of a shift
does to the value (R81, R82, R84, R85).
-/

namespace Sys2Proof.Machine

/-! ## One word -/

theorem le_typeMax_iff {wb : Nat} {x : Nat} : x ≤ typeMax wb ↔ x < 2 ^ wb := by
  have := Nat.two_pow_pos wb
  unfold typeMax; omega

theorem trunc_lt (wb v : Nat) : trunc wb v < 2 ^ wb := Nat.mod_lt _ (Nat.two_pow_pos wb)

theorem trunc_le_typeMax (wb v : Nat) : trunc wb v ≤ typeMax wb := le_typeMax_iff.2 (trunc_lt wb v)

theorem and_typeMax (wb v : Nat) : v &&& typeMax wb = v % 2 ^ wb := Nat.and_two_pow_sub_one_eq_mod v wb

theorem WordsFit.cons {wb : Nat} {x : Nat} {ws : List Nat} :
    WordsFit wb (x :: ws) ↔ x < 2 ^ wb ∧ WordsFit wb ws := by
  simp [WordsFit, le_typeMax_iff]

theorem WordsFit.nil (wb : Nat) : WordsFit wb [] := by simp [WordsFit]

theorem WordsFit.append {wb : Nat} {a b : List Nat} :
    WordsFit wb (a ++ b) ↔ WordsFit wb a ∧ WordsFit wb b := by
  simp only [WordsFit, List.mem_append]
  exact ⟨fun h => ⟨fun x hx => h x (.inl hx), fun x hx => h x (.inr hx)⟩,
    fun h x hx => hx.elim (h.1 x) (h.2 x)⟩

theorem WordsFit.zeros (wb n : Nat) : WordsFit wb (List.replicate n 0) := by
  intro x hx
  rw [(List.mem_replicate.1 hx).2]
  exact Nat.zero_le _

theorem WordsFit.getElem {wb : Nat} {ws : List Nat} (h : WordsFit wb ws) {k : Nat} {v : Nat}
    (hk : ws[k]? = some v) : v ≤ typeMax wb :=
  h v (List.mem_of_getElem? hk)

/-! ## The value of a sequence -/

@[simp] theorem val_nil (wb : Nat) : val wb [] = 0 := rfl

theorem val_cons (wb : Nat) (x : Nat) (ws : List Nat) :
    val wb (x :: ws) = x * 2 ^ (wb * ws.length) + val wb ws := rfl

theorem val_lt {wb : Nat} {ws : List Nat} (h : WordsFit wb ws) : val wb ws < 2 ^ (wb * ws.length) := by
  induction ws with
  | nil => simp
  | cons x ws ih =>
    obtain ⟨hx, hws⟩ := WordsFit.cons.1 h
    have ih := ih hws
    rw [val_cons, List.length_cons, Nat.mul_succ, Nat.add_comm (wb * ws.length), Nat.pow_add]
    calc x * 2 ^ (wb * ws.length) + val wb ws
        < x * 2 ^ (wb * ws.length) + 2 ^ (wb * ws.length) := by omega
      _ = (x + 1) * 2 ^ (wb * ws.length) := by ring
      _ ≤ 2 ^ wb * 2 ^ (wb * ws.length) := Nat.mul_le_mul_right _ hx

theorem val_append (wb : Nat) (a b : List Nat) :
    val wb (a ++ b) = val wb a * 2 ^ (wb * b.length) + val wb b := by
  induction a with
  | nil => simp
  | cons x a ih =>
    rw [List.cons_append, val_cons, val_cons, ih, List.length_append, Nat.mul_add, Nat.pow_add]
    ring

@[simp] theorem val_zeros (wb n : Nat) : val wb (List.replicate n 0) = 0 := by
  induction n with
  | zero => rfl
  | succ n ih => rw [List.replicate_succ, val_cons, ih]; simp

theorem val_inj {wb : Nat} {a b : List Nat} (ha : WordsFit wb a) (hb : WordsFit wb b)
    (hl : a.length = b.length) (hv : val wb a = val wb b) : a = b := by
  induction a generalizing b with
  | nil => exact (List.eq_nil_of_length_eq_zero hl.symm).symm
  | cons x a ih =>
    match b, hl with
    | y :: b, hl =>
      obtain ⟨_, ha'⟩ := WordsFit.cons.1 ha
      obtain ⟨_, hb'⟩ := WordsFit.cons.1 hb
      have hl' : a.length = b.length := by simpa using hl
      have la := val_lt ha'
      have lb := val_lt hb'
      rw [val_cons, val_cons, ← hl'] at hv
      rw [← hl'] at lb
      have hxy : x = y := by
        have h1 := congrArg (fun n => n / 2 ^ (wb * a.length)) hv
        beta_reduce at h1
        rwa [Nat.mul_comm x, Nat.mul_comm y, Nat.mul_add_div (Nat.two_pow_pos _),
          Nat.mul_add_div (Nat.two_pow_pos _), Nat.div_eq_of_lt la, Nat.div_eq_of_lt lb,
          Nat.add_zero, Nat.add_zero] at h1
      subst hxy
      rw [ih ha' hb' hl' (by omega)]

/-! ## fromval -/

@[simp] theorem length_fromval (wb v w : Nat) : (fromval wb v w).length = w := by simp [fromval]

theorem fromval_succ (wb v w : Nat) :
    fromval wb v (w + 1) = ((v >>> (wb * w)) &&& typeMax wb) :: fromval wb v w := by
  unfold fromval
  rw [List.range_succ_eq_map, List.map_cons, List.map_map]
  simp only [Nat.add_sub_cancel, Nat.sub_zero]
  congr 1
  apply List.map_congr_left
  intro k hk
  have : w + 1 - 1 - (k + 1) = w - 1 - k := by omega
  simp only [Function.comp, Nat.succ_eq_add_one]
  rw [← this]; rfl

theorem fromval_fit (wb v w : Nat) : WordsFit wb (fromval wb v w) := by
  intro x hx
  obtain ⟨k, _, rfl⟩ := List.mem_map.1 hx
  rw [and_typeMax]
  exact trunc_le_typeMax wb _

theorem val_fromval (wb v w : Nat) : val wb (fromval wb v w) = v % 2 ^ (wb * w) := by
  induction w with
  | zero => simp [fromval, Nat.mod_one]
  | succ w ih =>
    rw [fromval_succ, val_cons, ih, length_fromval, and_typeMax, Nat.shiftRight_eq_div_pow, Nat.mul_succ,
      Nat.pow_add, Nat.mod_mul]
    ring

theorem fromval_val {wb : Nat} {ws : List Nat} (h : WordsFit wb ws) :
    fromval wb (val wb ws) ws.length = ws :=
  val_inj (fromval_fit _ _ _) h (length_fromval _ _ _)
    (by rw [val_fromval, Nat.mod_eq_of_lt (val_lt h)])

theorem eq_fromval {wb v w : Nat} {ws : List Nat} (h : WordsFit wb ws) (hl : ws.length = w)
    (hv : val wb ws = v) : ws = fromval wb v w := by
  subst hl; subst hv; exact (fromval_val h).symm

/-! ## The sub-word passes -/

@[simp] theorem length_subWordLeft (wb s : Nat) (ws : List Nat) : (subWordLeft wb s ws).length = ws.length := by
  induction ws using subWordLeft.induct with
  | case1 => rfl
  | case2 => rfl
  | case3 x y rest ih => simpa [subWordLeft] using ih

theorem subWordLeft_fit {wb s : Nat} {ws : List Nat} (h : WordsFit wb ws) :
    WordsFit wb (subWordLeft wb s ws) := by
  induction ws using subWordLeft.induct with
  | case1 => exact h
  | case2 x => exact WordsFit.cons.2 ⟨trunc_lt _ _, WordsFit.nil _⟩
  | case3 x y rest ih =>
    obtain ⟨_, h2⟩ := WordsFit.cons.1 h
    refine WordsFit.cons.2 ⟨Nat.or_lt_two_pow (trunc_lt _ _) ?_, ih h2⟩
    exact Nat.lt_of_le_of_lt (Nat.shiftRight_le _ _) (WordsFit.cons.1 h2).1

/-- The two halves of a word of the sub-word pass share no bit: the barrel-shifted part is a multiple of
`2^s` and the carry-in is below `2^s`. -/
theorem or_carry {wb s : Nat} (hs : s ≤ wb) (x : Nat) {c : Nat} (hc : c < 2 ^ s) :
    trunc wb (x <<< s) ||| c = (x * 2 ^ s) % 2 ^ wb + c := by
  unfold trunc
  have h : (x <<< s) % 2 ^ wb = 2 ^ s * (x % 2 ^ (wb - s)) := by
    rw [Nat.shiftLeft_eq, Nat.mul_comm, show 2 ^ wb = 2 ^ s * 2 ^ (wb - s) by
      rw [← Nat.pow_add]; congr 1; omega, Nat.mul_mod_mul_left]
  rw [← Nat.shiftLeft_eq, h, Nat.two_pow_add_eq_or_of_lt hc]

theorem val_subWordLeft {wb s : Nat} (hs : s ≤ wb) {ws : List Nat} (h : WordsFit wb ws) :
    val wb (subWordLeft wb s ws) = (val wb ws * 2 ^ s) % 2 ^ (wb * ws.length) := by
  induction ws using subWordLeft.induct with
  | case1 => simp [subWordLeft, Nat.mod_one]
  | case2 x => simp [subWordLeft, val_cons, trunc, Nat.shiftLeft_eq]
  | case3 x y rest ih =>
    obtain ⟨_, h2⟩ := WordsFit.cons.1 h
    obtain ⟨hy, h3⟩ := WordsFit.cons.1 h2
    have hr := val_lt h3
    have hcarry : y >>> (wb - s) < 2 ^ s := by
      rw [Nat.shiftRight_eq_div_pow, Nat.div_lt_iff_lt_mul (Nat.two_pow_pos _), ← Nat.pow_add]
      rwa [show s + (wb - s) = wb by omega]
    rw [subWordLeft, or_carry hs x hcarry, val_cons, ih h2, length_subWordLeft, val_cons wb x]
    have hlen : (x :: y :: rest).length = (y :: rest).length + 1 := rfl
    rw [hlen, Nat.mul_succ]
    have key : val wb (y :: rest) * 2 ^ s / 2 ^ (wb * (y :: rest).length) = y >>> (wb - s) := by
      rw [val_cons, List.length_cons, Nat.mul_succ, Nat.pow_add, Nat.mul_comm (2 ^ (wb * rest.length)),
        ← Nat.div_div_eq_div_mul]
      have e : 2 ^ wb = 2 ^ (wb - s) * 2 ^ s := by rw [← Nat.pow_add]; congr 1; omega
      rw [e, Nat.mul_div_mul_right _ _ (Nat.two_pow_pos s), Nat.div_div_eq_div_mul,
        Nat.mul_comm (2 ^ (wb - s)), ← Nat.div_div_eq_div_mul, Nat.mul_comm y,
        Nat.mul_add_div (Nat.two_pow_pos _), Nat.div_eq_of_lt hr, Nat.add_zero, Nat.shiftRight_eq_div_pow]
    generalize wb * (y :: rest).length = n at *
    generalize val wb (y :: rest) = R at *
    rw [← key, Nat.pow_add]
    have e1 : (x * 2 ^ n + R) * 2 ^ s = R * 2 ^ s % 2 ^ n + 2 ^ n * (x * 2 ^ s + R * 2 ^ s / 2 ^ n) := by
      have := Nat.mod_add_div (R * 2 ^ s) (2 ^ n)
      calc (x * 2 ^ n + R) * 2 ^ s = R * 2 ^ s + 2 ^ n * (x * 2 ^ s) := by ring
        _ = (R * 2 ^ s % 2 ^ n + 2 ^ n * (R * 2 ^ s / 2 ^ n)) + 2 ^ n * (x * 2 ^ s) := by rw [this]
        _ = _ := by ring
    rw [e1, Nat.mod_mul]
    have hm : (R * 2 ^ s % 2 ^ n + 2 ^ n * (x * 2 ^ s + R * 2 ^ s / 2 ^ n)) % 2 ^ n = R * 2 ^ s % 2 ^ n := by
      rw [Nat.add_mul_mod_self_left, Nat.mod_mod]
    have hd : (R * 2 ^ s % 2 ^ n + 2 ^ n * (x * 2 ^ s + R * 2 ^ s / 2 ^ n)) / 2 ^ n
        = x * 2 ^ s + R * 2 ^ s / 2 ^ n := by
      rw [Nat.add_mul_div_left _ _ (Nat.two_pow_pos n), Nat.div_eq_of_lt (Nat.mod_lt _ (Nat.two_pow_pos n)),
        Nat.zero_add]
    rw [hm, hd]
    have hsum : (x * 2 ^ s + R * 2 ^ s / 2 ^ n) % 2 ^ wb = x * 2 ^ s % 2 ^ wb + R * 2 ^ s / 2 ^ n := by
      rw [key]
      have e : 2 ^ wb = 2 ^ s * 2 ^ (wb - s) := by rw [← Nat.pow_add]; congr 1; omega
      have hx : x * 2 ^ s % 2 ^ wb = 2 ^ s * (x % 2 ^ (wb - s)) := by
        rw [e, Nat.mul_comm, Nat.mul_mod_mul_left]
      have hlt : x * 2 ^ s % 2 ^ wb + y >>> (wb - s) < 2 ^ wb := by
        rw [hx]
        have h5 : x % 2 ^ (wb - s) + 1 ≤ 2 ^ (wb - s) := Nat.mod_lt _ (Nat.two_pow_pos _)
        calc 2 ^ s * (x % 2 ^ (wb - s)) + y >>> (wb - s)
            < 2 ^ s * (x % 2 ^ (wb - s)) + 2 ^ s := by omega
          _ = 2 ^ s * (x % 2 ^ (wb - s) + 1) := by ring
          _ ≤ 2 ^ s * 2 ^ (wb - s) := Nat.mul_le_mul_left _ h5
          _ = 2 ^ wb := e.symm
      rw [← Nat.mod_eq_of_lt hlt, Nat.mod_add_mod]
    rw [hsum]; ring

@[simp] theorem length_subWordRightAfter (wb s : Nat) (before : Nat) (ws : List Nat) :
    (subWordRightAfter wb s before ws).length = ws.length := by
  induction ws generalizing before with
  | nil => rfl
  | cons x ws ih => simp [subWordRightAfter, ih]

@[simp] theorem length_subWordRight (wb s : Nat) (ws : List Nat) :
    (subWordRight wb s ws).length = ws.length := by
  cases ws <;> simp [subWordRight]

theorem subWordRightAfter_fit {wb s : Nat} {before : Nat} {ws : List Nat} (h : WordsFit wb ws) :
    WordsFit wb (subWordRightAfter wb s before ws) := by
  induction ws generalizing before with
  | nil => exact h
  | cons x ws ih =>
    obtain ⟨hx, h2⟩ := WordsFit.cons.1 h
    exact WordsFit.cons.2
      ⟨Nat.or_lt_two_pow (Nat.lt_of_le_of_lt (Nat.shiftRight_le _ _) hx) (trunc_lt _ _), ih h2⟩

theorem subWordRight_fit {wb s : Nat} {ws : List Nat} (h : WordsFit wb ws) :
    WordsFit wb (subWordRight wb s ws) := by
  cases ws with
  | nil => exact h
  | cons x ws =>
    obtain ⟨hx, h2⟩ := WordsFit.cons.1 h
    exact WordsFit.cons.2 ⟨Nat.lt_of_le_of_lt (Nat.shiftRight_le _ _) hx, subWordRightAfter_fit h2⟩

/-- `(x * 2^n + r) / 2^s` splits at `n` into the quotient of the head and the digits below. -/
theorem div_split {n s x r : Nat} (hr : r < 2 ^ n) :
    (x * 2 ^ n + r) / 2 ^ s = (x / 2 ^ s) * 2 ^ n + (x * 2 ^ n + r) / 2 ^ s % 2 ^ n := by
  have h : (x * 2 ^ n + r) / 2 ^ s / 2 ^ n = x / 2 ^ s := by
    rw [Nat.div_div_eq_div_mul, Nat.mul_comm (2 ^ s), ← Nat.div_div_eq_div_mul, Nat.mul_comm x,
      Nat.mul_add_div (Nat.two_pow_pos _), Nat.div_eq_of_lt hr, Nat.add_zero]
  have := Nat.div_add_mod ((x * 2 ^ n + r) / 2 ^ s) (2 ^ n)
  rw [h] at this
  rw [Nat.mul_comm (x / 2 ^ s)]
  exact this.symm

theorem val_subWordRightAfter {wb s : Nat} (hs : s ≤ wb) {before : Nat} {ws : List Nat}
    (h : WordsFit wb ws) :
    val wb (subWordRightAfter wb s before ws)
      = (before * 2 ^ (wb * ws.length) + val wb ws) / 2 ^ s % 2 ^ (wb * ws.length) := by
  induction ws generalizing before with
  | nil => simp [subWordRightAfter, Nat.mod_one]
  | cons x ws ih =>
    obtain ⟨hx, h2⟩ := WordsFit.cons.1 h
    have hr := val_lt h2
    rw [subWordRightAfter, val_cons, ih h2, length_subWordRightAfter, val_cons, List.length_cons, Nat.mul_succ,
      Nat.pow_add]
    have hcarry : x >>> s < 2 ^ (wb - s) := by
      rw [Nat.shiftRight_eq_div_pow, Nat.div_lt_iff_lt_mul (Nat.two_pow_pos _), ← Nat.pow_add]
      rwa [show wb - s + s = wb by omega]
    rw [Nat.or_comm, or_carry (Nat.sub_le wb s) before hcarry]
    generalize wb * ws.length = n at *
    generalize val wb ws = r at *
    rw [Nat.mod_mul]
    have e0 : before * (2 ^ n * 2 ^ wb) + (x * 2 ^ n + r) = (before * 2 ^ wb + x) * 2 ^ n + r := by ring
    rw [e0]
    have es : 2 ^ wb = 2 ^ (wb - s) * 2 ^ s := by rw [← Nat.pow_add]; congr 1; omega
    have hq : ((before * 2 ^ wb + x) * 2 ^ n + r) / 2 ^ s / 2 ^ n = before * 2 ^ (wb - s) + x >>> s := by
      rw [Nat.div_div_eq_div_mul, Nat.mul_comm (2 ^ s), ← Nat.div_div_eq_div_mul,
        Nat.mul_comm (before * 2 ^ wb + x), Nat.mul_add_div (Nat.two_pow_pos _), Nat.div_eq_of_lt hr,
        Nat.add_zero, es, ← Nat.mul_assoc, Nat.mul_comm _ (2 ^ s), Nat.mul_add_div (Nat.two_pow_pos _),
        Nat.shiftRight_eq_div_pow]
    have hm : ((before * 2 ^ wb + x) * 2 ^ n + r) / 2 ^ s % 2 ^ n = (x * 2 ^ n + r) / 2 ^ s % 2 ^ n := by
      have e1 : (before * 2 ^ wb + x) * 2 ^ n + r
          = 2 ^ s * (before * 2 ^ (wb - s) * 2 ^ n) + (x * 2 ^ n + r) := by rw [es]; ring
      rw [e1, Nat.mul_add_div (Nat.two_pow_pos _), Nat.mul_comm (before * 2 ^ (wb - s)), Nat.mul_add_mod]
    rw [hq, hm]
    have hlt : before * 2 ^ (wb - s) % 2 ^ wb + x >>> s < 2 ^ wb := by
      have hb : before * 2 ^ (wb - s) % 2 ^ wb = 2 ^ (wb - s) * (before % 2 ^ s) := by
        rw [es, Nat.mul_comm before, Nat.mul_mod_mul_left]
      rw [hb]
      have h5 : before % 2 ^ s + 1 ≤ 2 ^ s := Nat.mod_lt _ (Nat.two_pow_pos _)
      calc 2 ^ (wb - s) * (before % 2 ^ s) + x >>> s
          < 2 ^ (wb - s) * (before % 2 ^ s) + 2 ^ (wb - s) := by omega
        _ = 2 ^ (wb - s) * (before % 2 ^ s + 1) := by ring
        _ ≤ 2 ^ (wb - s) * 2 ^ s := Nat.mul_le_mul_left _ h5
        _ = 2 ^ wb := es.symm
    rw [← Nat.mod_add_mod, Nat.mod_eq_of_lt hlt]
    ring

theorem val_subWordRight {wb s : Nat} (hs : s ≤ wb) {ws : List Nat} (h : WordsFit wb ws) :
    val wb (subWordRight wb s ws) = val wb ws / 2 ^ s := by
  cases ws with
  | nil => simp [subWordRight]
  | cons x ws =>
    obtain ⟨hx, h2⟩ := WordsFit.cons.1 h
    have hr := val_lt h2
    rw [subWordRight, val_cons, val_subWordRightAfter hs h2, length_subWordRightAfter, val_cons,
      Nat.shiftRight_eq_div_pow]
    exact (div_split hr).symm

/-! ## The two parts of a shift (R80) -/

theorem shift_parts (wb shift : Nat) : wb * shift1 wb shift + shift2 wb shift = shift := Nat.div_add_mod shift wb

theorem shift2_lt {wb : Nat} (h : 1 ≤ wb) (shift : Nat) : shift2 wb shift < wb := Nat.mod_lt _ h

/-! ## The whole-word passes as numbers -/

theorem val_dropWords {wb : Nat} (ws : List Nat) (h : WordsFit wb ws) (n : Nat) :
    val wb (ws.drop n ++ List.replicate (min n ws.length) 0)
      = (val wb ws * 2 ^ (wb * n)) % 2 ^ (wb * ws.length) := by
  by_cases hn : n ≤ ws.length
  · have hd : WordsFit wb (ws.drop n) := fun x hx => h x (List.mem_of_mem_drop hx)
    have hl : val wb ws = val wb (ws.take n) * 2 ^ (wb * (ws.drop n).length) + val wb (ws.drop n) := by
      rw [← val_append, List.take_append_drop]
    have hlt := val_lt hd
    have hp : 2 ^ (wb * ws.length) = 2 ^ (wb * (ws.drop n).length) * 2 ^ (wb * n) := by
      rw [← Nat.pow_add, ← Nat.mul_add, List.length_drop]; congr 2; omega
    rw [val_append, val_zeros, List.length_replicate, Nat.min_eq_left hn, hp, hl, Nat.mul_mod_mul_right,
      Nat.mul_comm (val wb (ws.take n)), Nat.mul_add_mod, Nat.mod_eq_of_lt hlt, Nat.add_zero]
  · have h1 : ws.drop n = [] := List.drop_eq_nil_of_le (by omega)
    rw [h1, List.nil_append, val_zeros, show wb * n = wb * ws.length + wb * (n - ws.length) by
      rw [← Nat.mul_add]; congr 1; omega, Nat.pow_add, Nat.mul_left_comm, Nat.mul_mod_right]

theorem val_takeWords {wb : Nat} (ws : List Nat) (h : WordsFit wb ws) (n : Nat) :
    val wb (List.replicate (min n ws.length) 0 ++ ws.take (ws.length - n)) = val wb ws / 2 ^ (wb * n) := by
  rw [val_append, val_zeros, Nat.zero_mul, Nat.zero_add]
  by_cases hn : n ≤ ws.length
  · have hd : WordsFit wb (ws.drop (ws.length - n)) := fun x hx => h x (List.mem_of_mem_drop hx)
    have hl : val wb ws = val wb (ws.take (ws.length - n)) * 2 ^ (wb * (ws.drop (ws.length - n)).length)
        + val wb (ws.drop (ws.length - n)) := by
      rw [← val_append, List.take_append_drop]
    have hlt := val_lt hd
    have hlen : (ws.drop (ws.length - n)).length = n := by rw [List.length_drop]; omega
    rw [hlen] at hl hlt
    rw [hl, Nat.mul_comm (val wb (ws.take _)), Nat.mul_add_div (Nat.two_pow_pos _), Nat.div_eq_of_lt hlt,
      Nat.add_zero]
  · rw [show ws.length - n = 0 by omega, List.take_zero, val_nil]
    refine (Nat.div_eq_of_lt (Nat.lt_of_lt_of_le (val_lt h) ?_)).symm
    exact Nat.pow_le_pow_right (by omega) (Nat.mul_le_mul_left _ (by omega))

/-! ## Bits (R42) -/

/-- The bit of a position is that bit of the whole value, counted from its other end. -/
theorem bitAt_eq_testBit {wb : Nat} (hwb : 1 ≤ wb) {ws : List Nat} (h : WordsFit wb ws) {p : Nat}
    (hp : p < ws.length * wb) : bitAt wb ws p = (val wb ws).testBit (ws.length * wb - 1 - p) := by
  induction ws generalizing p with
  | nil => simp at hp
  | cons x ws ih =>
    obtain ⟨hx, h2⟩ := WordsFit.cons.1 h
    have hr := val_lt h2
    rw [val_cons, Nat.mul_comm x, Nat.testBit_two_pow_mul_add x hr]
    simp only [List.length_cons, Nat.add_mul, Nat.one_mul] at hp ⊢
    by_cases hlt : p < wb
    · have h1 : p / wb = 0 := Nat.div_eq_of_lt hlt
      have h3 : ¬ (ws.length * wb + wb - 1 - p < wb * ws.length) := by
        rw [Nat.mul_comm wb]; omega
      rw [if_neg h3]
      unfold bitAt
      rw [h1, Nat.mod_eq_of_lt hlt]
      have : ws.length * wb + wb - 1 - p - wb * ws.length = wb - 1 - p := by
        rw [Nat.mul_comm wb]; omega
      rw [this]; rfl
    · have hge : wb ≤ p := by omega
      have h3 : ws.length * wb + wb - 1 - p < wb * ws.length := by rw [Nat.mul_comm wb]; omega
      rw [if_pos h3]
      have ih := ih h2 (p := p - wb) (by omega)
      have e : ws.length * wb + wb - 1 - p = ws.length * wb - 1 - (p - wb) := by omega
      rw [e, ← ih]
      unfold bitAt
      have hd : p / wb = (p - wb) / wb + 1 := by
        rw [Nat.div_eq_sub_div hwb hge]
      have hm : p % wb = (p - wb) % wb := by
        rw [Nat.mod_eq_sub_mod hge]
      rw [hd, hm]; rfl

@[simp] theorem length_bitString (wb : Nat) (ws : List Nat) : (bitString wb ws).length = ws.length * wb := by
  simp [bitString]

end Sys2Proof.Machine
end

