-- ==== Sys2Proof/Laws/Buffer.lean ====
section
/-!
SUPPORT. The word buffer and the text destination: what a run of reads or writes does (R10), and what each pass
and scan does to the buffer (R81 to R85, R100, R102).
-/

namespace Sys2Proof.Machine

/-- The buffer half of `Storage.wf`: canonical form, indices below CAP, words at most TYPE_MAX (R26). -/
def Buf.Good (wb : Nat) (b : Buf) : Prop :=
  1 ≤ b.cap ∧ b.words.wf ∧ ∀ c ∈ b.words, c.1 < b.cap ∧ c.2 ≤ typeMax wb

theorem Buf.Good.read_le {wb : Nat} {b : Buf} (h : b.Good wb) {k v : Nat} (hr : b.words.read k = some v) :
    v ≤ typeMax wb :=
  (h.2.2 _ (Memory.mem_of_read hr)).2

/-! ## One access -/

theorem Buf.read_ok {b : Buf} {w k v : Nat} : b.read w k = .ok v ↔ k < w ∧ k < b.cap ∧
    b.words.read k = some v := by
  unfold Buf.read
  split
  · next h => split <;> simp_all
  · next h => simp; omega

theorem Buf.read_error {b : Buf} {w k : Nat} {f : Fault} (hw : k < w) (hc : k < b.cap)
    (h : b.read w k = .error f) : f = .unwrittenWord ∧ b.words.read k = none := by
  unfold Buf.read at h
  rw [if_pos ⟨hw, hc⟩] at h
  split at h <;> simp_all

theorem Buf.read_unwritten {b : Buf} {w k : Nat} (hw : k < w) (hc : k < b.cap) (h : b.words.read k = none) :
    b.read w k = .error .unwrittenWord := by
  unfold Buf.read
  rw [if_pos ⟨hw, hc⟩, h]

theorem Buf.write_ok {b b' : Buf} {w k v : Nat} :
    b.write w k v = .ok b' ↔ k < w ∧ k < b.cap ∧ b' = { b with words := b.words.write k v } := by
  unfold Buf.write
  split
  · next h => simp [h.1, h.2, eq_comm]
  · next h => simp; omega

theorem Buf.write_of_lt {b : Buf} {w k : Nat} (v : Nat) (hw : k < w) (hc : k < b.cap) :
    b.write w k v = .ok { b with words := b.words.write k v } :=
  Buf.write_ok.2 ⟨hw, hc, rfl⟩

theorem Buf.Good.put {wb : Nat} {b : Buf} (h : b.Good wb) {k v : Nat} (hk : k < b.cap) (hv : v ≤ typeMax wb) :
    Buf.Good wb { b with words := b.words.write k v } := by
  refine ⟨h.1, Memory.wf_write h.2.1 k v, fun c hc => ?_⟩
  rcases Memory.mem_write hc with rfl | hc
  · exact ⟨hk, hv⟩
  · exact h.2.2 c hc

/-! ## Runs of accesses -/

/-- A run of reads answers exactly the words at its indices. -/
theorem Buf.readRun_ok {b : Buf} {w k n : Nat} {vs : List Nat} (h : b.readRun w k n = .ok vs) :
    vs.length = n ∧ ∀ j, j < n → ∃ v, vs[j]? = some v ∧ b.words.read (k + j) = some v := by
  induction n generalizing k vs with
  | zero => simp only [Buf.readRun, Except.ok.injEq] at h; subst h; simp
  | succ n ih =>
    simp only [Buf.readRun] at h
    split at h
    · simp at h
    · next v hv =>
      split at h
      · simp at h
      · next vs' hvs =>
        simp only [Except.ok.injEq] at h
        subst h
        obtain ⟨hl, hr⟩ := ih hvs
        refine ⟨by simp [hl], fun j hj => ?_⟩
        cases j with
        | zero => exact ⟨v, rfl, (Buf.read_ok.1 hv).2.2⟩
        | succ j =>
          obtain ⟨u, h1, h2⟩ := hr j (by omega)
          exact ⟨u, by simpa using h1, by rw [show k + (j + 1) = k + 1 + j by omega]; exact h2⟩

theorem Buf.readRun_of_written {b : Buf} {w k n : Nat} {vs : List Nat} (hw : k + n ≤ w) (hc : k + n ≤ b.cap)
    (hl : vs.length = n) (h : ∀ j, j < n → ∃ v, vs[j]? = some v ∧ b.words.read (k + j) = some v) :
    b.readRun w k n = .ok vs := by
  induction n generalizing k vs with
  | zero => simp [Buf.readRun, List.eq_nil_of_length_eq_zero hl]
  | succ n ih =>
    match vs, hl with
    | x :: vs, hl =>
      obtain ⟨v, h1, h2⟩ := h 0 (by omega)
      simp only [List.getElem?_cons_zero, Option.some.injEq] at h1
      subst h1
      have hx : b.read w k = .ok x := Buf.read_ok.2 ⟨by omega, by omega, h2⟩
      have hrest : b.readRun w (k + 1) n = .ok vs := by
        refine ih (by omega) (by omega) (by simpa using hl) fun j hj => ?_
        obtain ⟨u, h3, h4⟩ := h (j + 1) (by omega)
        exact ⟨u, by simpa using h3, by rw [show k + 1 + j = k + (j + 1) by omega]; exact h4⟩
      simp only [Buf.readRun, hx, hrest]

/-- Within the window a run of reads faults only because of a word the caller never wrote (R171). -/
theorem Buf.readRun_error {b : Buf} {w k n : Nat} {f : Fault} (hw : k + n ≤ w) (hc : k + n ≤ b.cap)
    (h : b.readRun w k n = .error f) :
    f = .unwrittenWord ∧ ∃ j, j < n ∧ b.words.read (k + j) = none := by
  induction n generalizing k with
  | zero => simp [Buf.readRun] at h
  | succ n ih =>
    simp only [Buf.readRun] at h
    split at h
    · next g hg =>
      simp only [Except.error.injEq] at h
      subst h
      obtain ⟨h1, h2⟩ := Buf.read_error (by omega) (by omega) hg
      exact ⟨h1, 0, by omega, h2⟩
    · split at h
      · next g hg =>
        simp only [Except.error.injEq] at h
        subst h
        obtain ⟨h1, j, hj, h2⟩ := ih (by omega) (by omega) hg
        exact ⟨h1, j + 1, by omega, by rw [show k + (j + 1) = k + 1 + j by omega]; exact h2⟩
      · simp at h

theorem Buf.readRun_unwritten {b : Buf} {w k n j : Nat} (hw : k + n ≤ w) (hc : k + n ≤ b.cap) (hj : j < n)
    (h : b.words.read (k + j) = none) : b.readRun w k n = .error .unwrittenWord := by
  cases hr : b.readRun w k n with
  | error f => rw [(Buf.readRun_error hw hc hr).1]
  | ok vs =>
    obtain ⟨v, _, h2⟩ := (Buf.readRun_ok hr).2 j hj
    rw [h] at h2; cases h2

theorem Buf.readRun_fit {wb : Nat} {b : Buf} (hb : b.Good wb) {w k n : Nat} {vs : List Nat}
    (h : b.readRun w k n = .ok vs) : WordsFit wb vs := by
  intro x hx
  obtain ⟨hl, hr⟩ := Buf.readRun_ok h
  obtain ⟨j, hj, rfl⟩ := List.getElem_of_mem hx
  obtain ⟨v, h1, h2⟩ := hr j (hl ▸ hj)
  rw [List.getElem?_eq_getElem hj, Option.some.injEq] at h1
  exact h1 ▸ hb.read_le h2

/-- What a run of writes leaves: its words at its indices, everything else as before. -/
theorem Buf.writeRun_spec {w : Nat} {b b' : Buf} {k : Nat} {vs : List Nat}
    (h : Buf.writeRun w b k vs = .ok b') :
    b'.cap = b.cap ∧ ∀ j, b'.words.read j = if k ≤ j ∧
        j < k + vs.length then vs[j - k]? else b.words.read j := by
  induction vs generalizing b k with
  | nil =>
    simp only [Buf.writeRun, Except.ok.injEq] at h
    subst h
    refine ⟨rfl, fun j => ?_⟩
    have : ¬ (k ≤ j ∧ j < k + ([] : List Nat).length) := by simp
    rw [if_neg this]
  | cons v vs ih =>
    simp only [Buf.writeRun] at h
    split at h
    · simp at h
    · next b1 hb1 =>
      obtain ⟨_, _, rfl⟩ := Buf.write_ok.1 hb1
      obtain ⟨hc, hr⟩ := ih h
      refine ⟨hc, fun j => ?_⟩
      rw [hr j, List.length_cons]
      by_cases h1 : k + 1 ≤ j ∧ j < k + 1 + vs.length
      · rw [if_pos h1, if_pos (by omega), show j - k = (j - (k + 1)) + 1 by omega, List.getElem?_cons_succ]
      · rw [if_neg h1]
        dsimp only
        rw [Memory.read_write]
        by_cases h2 : j = k
        · subst h2; simp
        · rw [if_neg h2, if_neg (by omega)]

theorem Buf.writeRun_of_lt {w : Nat} {b : Buf} {k : Nat} {vs : List Nat} (hw : k + vs.length ≤ w)
    (hc : k + vs.length ≤ b.cap) : ∃ b', Buf.writeRun w b k vs = .ok b' := by
  induction vs generalizing b k with
  | nil => exact ⟨b, rfl⟩
  | cons v vs ih =>
    rw [List.length_cons] at hw hc
    obtain ⟨b', hb'⟩ := ih (b := { b with words := b.words.write k v }) (k := k + 1) (by omega)
      (show k + 1 + vs.length ≤ b.cap by omega)
    exact ⟨b', by simp only [Buf.writeRun, Buf.write_of_lt v (show k < w by omega)
        (show k < b.cap by omega), hb']⟩

theorem Buf.writeRun_good {wb w : Nat} {b b' : Buf} {k : Nat} {vs : List Nat} (hb : b.Good wb)
    (hv : WordsFit wb vs) (h : Buf.writeRun w b k vs = .ok b') : b'.Good wb := by
  induction vs generalizing b k with
  | nil => simp only [Buf.writeRun, Except.ok.injEq] at h; exact h ▸ hb
  | cons v vs ih =>
    simp only [Buf.writeRun] at h
    split at h
    · simp at h
    · next b1 hb1 =>
      obtain ⟨_, hk, rfl⟩ := Buf.write_ok.1 hb1
      obtain ⟨h1, h2⟩ := WordsFit.cons.1 hv
      exact ih (hb.put hk (le_typeMax_iff.2 h1)) h2 h

/-! ## The text destination -/

theorem writeTxtRun_spec {tcap : Nat} {x x' : List Host.Cell} {j : Nat} {cs : List Char8}
    (h : writeTxtRun tcap x j cs = .ok x') :
    ∀ i, Memory.read x' i = if j ≤ i ∧ i < j + cs.length then cs[i - j]? else Memory.read x i := by
  induction cs generalizing x j with
  | nil =>
    simp only [writeTxtRun, Except.ok.injEq] at h
    subst h
    intro i
    have : ¬ (j ≤ i ∧ i < j + ([] : List Char8).length) := by simp
    rw [if_neg this]
  | cons c cs ih =>
    simp only [writeTxtRun, writeTxt] at h
    split at h
    · simp at h
    · next x1 hx1 =>
      split at hx1
      · simp only [Except.ok.injEq] at hx1
        subst hx1
        intro i
        rw [ih h i, List.length_cons]
        by_cases h1 : j + 1 ≤ i ∧ i < j + 1 + cs.length
        · rw [if_pos h1, if_pos (by omega), show i - j = (i - (j + 1)) + 1 by omega, List.getElem?_cons_succ]
        · rw [if_neg h1, Memory.read_write]
          by_cases h2 : i = j
          · subst h2; simp
          · rw [if_neg h2, if_neg (by omega)]
      · simp at hx1

theorem writeTxtRun_of_lt {tcap : Nat} {x : List Host.Cell} {j : Nat} {cs : List Char8}
    (h : j + cs.length ≤ tcap) : ∃ x', writeTxtRun tcap x j cs = .ok x' := by
  induction cs generalizing x j with
  | nil => exact ⟨x, rfl⟩
  | cons c cs ih =>
    rw [List.length_cons] at h
    obtain ⟨x', hx'⟩ := ih (x := Memory.write x j c) (j := j + 1) (by omega)
    exact ⟨x', by simp only [writeTxtRun, writeTxt, if_pos (show j < tcap by omega), hx']⟩

theorem writeTxtRun_wf {tcap : Nat} {x x' : List Host.Cell} {j : Nat} {cs : List Char8} (hx : Memory.wf x)
    (h : writeTxtRun tcap x j cs = .ok x') : Memory.wf x' := by
  induction cs generalizing x j with
  | nil => simp only [writeTxtRun, Except.ok.injEq] at h; exact h ▸ hx
  | cons c cs ih =>
    simp only [writeTxtRun, writeTxt] at h
    split at h
    · simp at h
    · next x1 hx1 =>
      split at hx1
      · simp only [Except.ok.injEq] at hx1
        exact ih (hx1 ▸ Memory.wf_write hx j c) h
      · simp at hx1

end Sys2Proof.Machine
end

