-- ==== Sys2Proof/Laws/Decode.lean ====
section
/-!
SUPPORT. What the decoder answers, by OP, and when a port carries a value.
-/

namespace Sys2Proof.Machine

/-! ## Decoding -/

theorem decode_reserved {c : Command} (h : c.op = 0#8 ∨ 7 ≤ c.op.toNat) :
    decode c = .error (.reservedOp c.op) := by
  have : c.op.toNat ≠ 1 ∧ c.op.toNat ≠ 2 ∧ c.op.toNat ≠ 3 ∧ c.op.toNat ≠ 4 ∧ c.op.toNat ≠ 5 ∧
      c.op.toNat ≠ 6 := by
    rcases h with h | h
    · rw [h]; decide
    · omega
  unfold decode
  split <;> simp_all

theorem decode_cases (c : Command) :
  ((c.op = 0#8 ∨ 7 ≤ c.op.toNat) ∧ decode c = .error (.reservedOp c.op)) ∨
  (c.op = 1#8 ∧ decode c = .ok (.shl c.w c.shift)) ∨ (c.op = 2#8 ∧ decode c = .ok (.shr c.w c.shift)) ∨
  (c.op = 3#8 ∧ decode c = .ok (.inc c.w)) ∨ (c.op = 4#8 ∧ decode c = .ok (.dec c.w)) ∨
  (c.op = 5#8 ∧ decode c = .ok (.fmts c.w)) ∨ (c.op = 6#8 ∧ decode c = .ok (.fmtb c.w c.tcap)) := by
  by_cases h : c.op = 0#8 ∨ 7 ≤ c.op.toNat
  · exact .inl ⟨h, decode_reserved h⟩
  · have h1 : c.op.toNat ≠ 0 := fun h0 => h (.inl (BitVec.eq_of_toNat_eq h0))
    have h2 : c.op.toNat < 7 := by omega
    have : c.op.toNat = 1 ∨ c.op.toNat = 2 ∨ c.op.toNat = 3 ∨ c.op.toNat = 4 ∨ c.op.toNat = 5 ∨
        c.op.toNat = 6 := by omega
    refine .inr ?_
    obtain ⟨op, w, sh, tc⟩ := c
    dsimp only at *
    rcases this with h | h | h | h | h | h
    · have : op = 1#8 := BitVec.eq_of_toNat_eq h
      subst this; exact .inl ⟨rfl, rfl⟩
    · have : op = 2#8 := BitVec.eq_of_toNat_eq h
      subst this; exact .inr (.inl ⟨rfl, rfl⟩)
    · have : op = 3#8 := BitVec.eq_of_toNat_eq h
      subst this; exact .inr (.inr (.inl ⟨rfl, rfl⟩))
    · have : op = 4#8 := BitVec.eq_of_toNat_eq h
      subst this; exact .inr (.inr (.inr (.inl ⟨rfl, rfl⟩)))
    · have : op = 5#8 := BitVec.eq_of_toNat_eq h
      subst this; exact .inr (.inr (.inr (.inr (.inl ⟨rfl, rfl⟩))))
    · have : op = 6#8 := BitVec.eq_of_toNat_eq h
      subst this; exact .inr (.inr (.inr (.inr (.inr ⟨rfl, rfl⟩))))

theorem decode_w {c : Command} {i : Instr} (h : decode c = .ok i) : i.w = c.w := by
  rcases decode_cases c with ⟨_, e⟩ | ⟨_, e⟩ | ⟨_, e⟩ | ⟨_, e⟩ | ⟨_, e⟩ | ⟨_, e⟩ |
      ⟨_, e⟩ <;> rw [e] at h <;> cases h <;> rfl

/-! ## Ports -/

theorem bmod_eq_iff (m v : Int) (hm : 0 < m) :
    (-(2*m) ≤ 2 * v ∧ 2 * v < 2*m) ↔ (if v % (2*m) < (2*m+1)/2 then v % (2*m) else v % (2*m) - 2*m) = v := by
  have hd := Int.emod_add_mul_ediv v (2*m)
  have h0 := Int.emod_nonneg v (show 2*m ≠ 0 by omega)
  have h1 := Int.emod_lt_of_pos v (show 0 < 2*m by omega)
  generalize v / (2*m) = k at hd
  generalize v % (2*m) = r at *
  have hh : (2*m+1)/2 = m := by omega
  rw [hh]
  constructor
  · rintro ⟨a, b⟩
    split
    · next hlt =>
      have : k = 0 := by
        by_contra hk
        rcases lt_or_gt_of_ne hk with hk | hk
        · have : k ≤ -1 := by omega
          nlinarith
        · have : 1 ≤ k := by omega
          nlinarith
      subst this; omega
    · next hlt =>
      have : k = -1 := by
        by_contra hk
        rcases lt_or_gt_of_ne hk with hk | hk
        · have : k ≤ -2 := by omega
          nlinarith
        · have : 0 ≤ k := by omega
          nlinarith [mul_nonneg (show 0 ≤ m by omega) this, show m ≤ r by omega]
      subst this; omega
  · intro h
    split at h <;> omega

theorem fitsPort_iff (n : Nat) (v : Int) : fitsPort n v = true ↔ (BitVec.ofInt n v).toInt = v := by
  simp only [fitsPort, Bool.and_eq_true, decide_eq_true_eq, BitVec.toInt_ofInt, Int.bmod_def]
  rcases n with _ | n
  · simp; omega
  have e : (2:Int) ^ (n+1) = 2 * 2 ^ n := by ring
  have e2 : ((2 ^ (n+1) : Nat) : Int) = 2 * 2 ^ n := by push_cast; ring
  rw [e, e2]
  exact bmod_eq_iff (2^n) v (by positivity)

end Sys2Proof.Machine
end

