-- ==== Sys2Proof/Laws/Shift.lean ====
section
/-!
SUPPORT. What the passes of a shift do to the buffer (R81, R82, R84, R85), and the two passes of each shift
together (R87).
-/

namespace Sys2Proof.Machine

/-! ## Agreement with a list of words -/

theorem Buf.Agrees.mono {b : Buf} {ws : List Nat} {lo hi lo' hi' : Nat} (h : b.Agrees ws lo hi)
    (h1 : lo ≤ lo') (h2 : hi' ≤ hi) : b.Agrees ws lo' hi' :=
  fun k hk hk' => h k (Nat.le_trans h1 hk) (Nat.lt_of_lt_of_le hk' h2)

/-- A run of reads over words that agree with `ws` answers that part of `ws`. -/
theorem Buf.Agrees.readRun {b : Buf} {ws : List Nat} {lo hi w : Nat} (h : b.Agrees ws lo hi) (hlo : lo ≤ hi)
    (hw : hi ≤ w) (hc : hi ≤ b.cap) (hl : hi ≤ ws.length) :
    b.readRun w lo (hi - lo) = .ok ((ws.take hi).drop lo) := by
  refine Buf.readRun_of_written (by omega) (by omega) (by simp; omega) fun j hj => ?_
  obtain ⟨v, h1, h2⟩ := h (lo + j) (by omega) (by omega)
  refine ⟨v, ?_, h2⟩
  rw [List.getElem?_drop, List.getElem?_take, if_pos (by omega), h1]

theorem Buf.Agrees.readAll {b : Buf} {ws : List Nat} {w : Nat} (h : b.Agrees ws 0 w) (hc : w ≤ b.cap)
    (hl : ws.length = w) : b.readRun w 0 w = .ok ws := by
  have := h.readRun (w := w) (Nat.zero_le w) (Nat.le_refl w) hc (by omega)
  simpa [← hl] using this

/-- The words a run of reads over the whole window answered. -/
theorem Buf.agrees_of_readAll {b : Buf} {ws : List Nat} {w : Nat} (h : b.readRun w 0 w = .ok ws) :
    ws.length = w ∧ b.Agrees ws 0 w := by
  obtain ⟨hl, hr⟩ := Buf.readRun_ok h
  exact ⟨hl, fun k _ hk => by simpa using hr k hk⟩

/-- A run of writes over the whole window. -/
theorem Buf.writeAll_spec {b b' : Buf} {ws : List Nat} {w : Nat} (h : Buf.writeRun w b 0 ws = .ok b')
    (hl : ws.length = w) :
    b'.cap = b.cap ∧ b'.Agrees ws 0 w ∧ ∀ k, w ≤ k → b'.words.read k = b.words.read k := by
  obtain ⟨hc, hr⟩ := Buf.writeRun_spec h
  refine ⟨hc, fun k _ hk => ?_, fun k hk => ?_⟩
  · refine ⟨ws[k]'(by omega), List.getElem?_eq_getElem (by omega), ?_⟩
    rw [hr k, if_pos (by omega), Nat.sub_zero, List.getElem?_eq_getElem (by omega)]
  · rw [hr k, if_neg (by omega)]

/-! ## One pass -/

theorem wholeWordLeft_spec {w s1 : Nat} {b b' : Buf} (h : wholeWordLeft w s1 b = .ok b') :
    b'.cap = b.cap ∧
      (∀ k, k < w → b'.words.read k = if k + s1 < w then b.words.read (k + s1)
        else if s1 = 0 then b.words.read k else some 0) ∧
      ∀ k, w ≤ k → b'.words.read k = b.words.read k := by
  unfold wholeWordLeft at h
  split at h
  · next h0 =>
    simp only [Except.ok.injEq] at h
    subst h; subst h0
    exact ⟨rfl, fun k hk => by simp, fun _ _ => rfl⟩
  · next h0 =>
    split at h
    · simp at h
    · next ws hws =>
      obtain ⟨hl, hr⟩ := Buf.readRun_ok hws
      obtain ⟨hc, ha, hu⟩ := Buf.writeAll_spec (w := w) h (by simp; omega)
      refine ⟨hc, fun k hk => ?_, hu⟩
      obtain ⟨v, h1, h2⟩ := ha k (Nat.zero_le k) hk
      rw [h2, ← h1]
      by_cases hlt : k + s1 < w
      · obtain ⟨u, h3, h4⟩ := hr k (by omega)
        rw [if_pos hlt, List.getElem?_append_left (by omega), h3, Nat.add_comm k, h4]
      · rw [if_neg hlt, if_neg h0, List.getElem?_append_right (by omega), List.getElem?_replicate,
          if_pos (by omega)]

theorem wholeWordRight_spec {w s1 : Nat} {b b' : Buf} (h : wholeWordRight w s1 b = .ok b') :
    b'.cap = b.cap ∧
      (∀ k, k < w → b'.words.read k = if s1 ≤ k then b.words.read (k - s1) else some 0) ∧
      ∀ k, w ≤ k → b'.words.read k = b.words.read k := by
  unfold wholeWordRight at h
  split at h
  · next h0 =>
    simp only [Except.ok.injEq] at h
    subst h; subst h0
    exact ⟨rfl, fun k hk => by simp, fun _ _ => rfl⟩
  · next h0 =>
    split at h
    · simp at h
    · next ws hws =>
      obtain ⟨hl, hr⟩ := Buf.readRun_ok hws
      obtain ⟨hc, ha, hu⟩ := Buf.writeAll_spec (w := w) h (by simp; omega)
      refine ⟨hc, fun k hk => ?_, hu⟩
      obtain ⟨v, h1, h2⟩ := ha k (Nat.zero_le k) hk
      rw [h2, ← h1]
      by_cases hle : s1 ≤ k
      · obtain ⟨u, h3, h4⟩ := hr (k - s1) (by omega)
        rw [if_pos hle, List.getElem?_append_right (by simp; omega), List.length_replicate,
          show k - min s1 w = k - s1 by omega, h3]
        simpa using h4.symm
      · rw [if_neg hle, List.getElem?_append_left (by simp; omega), List.getElem?_replicate, if_pos (by omega)]

theorem wholeWordLeft_good {wb w s1 : Nat} {b b' : Buf} (hb : b.Good wb) (h : wholeWordLeft w s1 b = .ok b') :
    b'.Good wb := by
  unfold wholeWordLeft at h
  split at h
  · simp only [Except.ok.injEq] at h; exact h ▸ hb
  · split at h
    · simp at h
    · next ws hws =>
      exact Buf.writeRun_good hb (WordsFit.append.2 ⟨Buf.readRun_fit hb hws, WordsFit.zeros _ _⟩) h

theorem wholeWordRight_good {wb w s1 : Nat} {b b' : Buf} (hb : b.Good wb) (h : wholeWordRight w s1 b = .ok b') :
    b'.Good wb := by
  unfold wholeWordRight at h
  split at h
  · simp only [Except.ok.injEq] at h; exact h ▸ hb
  · split at h
    · simp at h
    · next ws hws =>
      exact Buf.writeRun_good hb (WordsFit.append.2 ⟨WordsFit.zeros _ _, Buf.readRun_fit hb hws⟩) h

theorem subWordPass_good {wb w s2 : Nat} {pass : List Nat → List Nat}
    (hp : ∀ ws, WordsFit wb ws → WordsFit wb (pass ws)) {b b' : Buf} (hb : b.Good wb)
    (h : subWordPass pass w s2 b = .ok b') : b'.Good wb := by
  unfold subWordPass at h
  split at h
  · simp only [Except.ok.injEq] at h; exact h ▸ hb
  · split at h
    · simp at h
    · next ws hws => exact Buf.writeRun_good hb (hp ws (Buf.readRun_fit hb hws)) h

theorem subWordPass_cap {w s2 : Nat} {pass : List Nat → List Nat} (hp : ∀ ws, (pass ws).length = ws.length)
    {b b' : Buf} (h : subWordPass pass w s2 b = .ok b') :
    b'.cap = b.cap ∧ ∀ k, w ≤ k → b'.words.read k = b.words.read k := by
  unfold subWordPass at h
  split at h
  · simp only [Except.ok.injEq] at h; subst h; exact ⟨rfl, fun _ _ => rfl⟩
  · split at h
    · simp at h
    · next ws hws =>
      obtain ⟨hl, _⟩ := Buf.readRun_ok hws
      obtain ⟨hc, _, hu⟩ := Buf.writeAll_spec (w := w) h (by rw [hp, hl])
      exact ⟨hc, hu⟩

theorem shiftLeft_frame {wb w shift : Nat} {b b' : Buf} (h : shiftLeft wb w shift b = .ok b') :
    b'.cap = b.cap ∧ ∀ k, w ≤ k → b'.words.read k = b.words.read k := by
  unfold shiftLeft at h
  split at h
  · simp at h
  · next b1 h1 =>
    obtain ⟨hc, _, hu⟩ := wholeWordLeft_spec h1
    obtain ⟨hc', hu'⟩ := subWordPass_cap (length_subWordLeft wb _) h
    exact ⟨hc'.trans hc, fun k hk => (hu' k hk).trans (hu k hk)⟩

theorem shiftRight_frame {wb w shift : Nat} {b b' : Buf} (h : shiftRight wb w shift b = .ok b') :
    b'.cap = b.cap ∧ ∀ k, w ≤ k → b'.words.read k = b.words.read k := by
  unfold shiftRight at h
  split at h
  · simp at h
  · next b1 h1 =>
    obtain ⟨hc, _, hu⟩ := wholeWordRight_spec h1
    obtain ⟨hc', hu'⟩ := subWordPass_cap (length_subWordRight wb _) h
    exact ⟨hc'.trans hc, fun k hk => (hu' k hk).trans (hu k hk)⟩

theorem shiftLeft_good {wb w shift : Nat} {b b' : Buf} (hb : b.Good wb) (h : shiftLeft wb w shift b = .ok b') :
    b'.Good wb := by
  unfold shiftLeft at h
  split at h
  · simp at h
  · next b1 h1 => exact subWordPass_good (fun _ => subWordLeft_fit) (wholeWordLeft_good hb h1) h

theorem shiftRight_good {wb w shift : Nat} {b b' : Buf} (hb : b.Good wb)
    (h : shiftRight wb w shift b = .ok b') :
    b'.Good wb := by
  unfold shiftRight at h
  split at h
  · simp at h
  · next b1 h1 => exact subWordPass_good (fun _ => subWordRight_fit) (wholeWordRight_good hb h1) h

/-! ## What each pass leaves, as words -/

theorem wholeWordLeft_agrees {w s1 : Nat} {b : Buf} {ws : List Nat} (hc : w ≤ b.cap) (hl : ws.length = w)
    (h : b.Agrees ws s1 w) :
    ∃ b', wholeWordLeft w s1 b = .ok b' ∧ b'.Agrees (ws.drop s1 ++ List.replicate (min s1 w) 0) 0 w := by
  unfold wholeWordLeft
  by_cases h0 : s1 = 0
  · subst h0
    exact ⟨b, by simp, by simpa using h⟩
  · rw [if_neg h0]
    have hr : b.readRun w s1 (w - s1) = .ok (ws.drop s1) := by
      by_cases hs : s1 ≤ w
      · have := h.readRun (w := w) hs (Nat.le_refl w) hc (by omega)
        rwa [← hl, List.take_length, hl] at this
      · rw [show w - s1 = 0 by omega, List.drop_eq_nil_of_le (by omega)]; rfl
    rw [hr]
    dsimp only
    obtain ⟨b', hb'⟩ := Buf.writeRun_of_lt (w := w) (b := b) (k := 0)
      (vs := ws.drop s1 ++ List.replicate (min s1 w) 0) (by simp; omega) (by simp; omega)
    exact ⟨b', hb', (Buf.writeAll_spec hb' (by simp; omega)).2.1⟩

theorem wholeWordRight_agrees {w s1 : Nat} {b : Buf} {ws : List Nat} (hc : w ≤ b.cap) (hl : ws.length = w)
    (h : b.Agrees ws 0 (w - s1)) :
    ∃ b', wholeWordRight w s1 b = .ok b' ∧ b'.Agrees (List.replicate (min s1 w) 0 ++ ws.take (w - s1)) 0 w := by
  unfold wholeWordRight
  by_cases h0 : s1 = 0
  · subst h0
    exact ⟨b, by simp, by simpa [← hl] using h⟩
  · rw [if_neg h0]
    have hr : b.readRun w 0 (w - s1) = .ok (ws.take (w - s1)) := by
      have := h.readRun (w := w) (Nat.zero_le _) (by omega) (by omega) (by omega)
      simpa using this
    rw [hr]
    dsimp only
    obtain ⟨b', hb'⟩ := Buf.writeRun_of_lt (w := w) (b := b) (k := 0)
      (vs := List.replicate (min s1 w) 0 ++ ws.take (w - s1)) (by simp; omega) (by simp; omega)
    exact ⟨b', hb', (Buf.writeAll_spec hb' (by simp; omega)).2.1⟩

theorem subWordPass_agrees {w s2 : Nat} {pass : List Nat → List Nat} (hp : ∀ ws, (pass ws).length = ws.length)
    {b : Buf} {ws : List Nat} (hc : w ≤ b.cap) (hl : ws.length = w) (h : b.Agrees ws 0 w) :
    ∃ b', subWordPass pass w s2 b = .ok b' ∧ b'.Agrees (if s2 = 0 then ws else pass ws) 0 w := by
  unfold subWordPass
  by_cases h0 : s2 = 0
  · exact ⟨b, by rw [if_pos h0], by rw [if_pos h0]; exact h⟩
  · rw [if_neg h0, if_neg h0, h.readAll hc hl]
    dsimp only
    obtain ⟨b', hb'⟩ := Buf.writeRun_of_lt (w := w) (b := b) (k := 0) (vs := pass ws)
      (by rw [hp]; omega) (by rw [hp]; omega)
    exact ⟨b', hb', (Buf.writeAll_spec hb' (by rw [hp, hl])).2.1⟩

/-- The two passes of SHL on words that were written where it reads them: the shifted value (R87). -/
theorem shiftLeft_agrees {wb w shift : Nat} (hwb : 1 ≤ wb) {b : Buf} {ws : List Nat} (hc : w ≤ b.cap)
    (hl : ws.length = w) (hf : WordsFit wb ws) (h : b.Agrees ws (shift1 wb shift) w) :
    ∃ b', shiftLeft wb w shift b = .ok b' ∧
      b'.Agrees (fromval wb ((val wb ws <<< shift) % 2 ^ (w * wb)) w) 0 w := by
  obtain ⟨b1, h1, ha1⟩ := wholeWordLeft_agrees hc hl h
  have hf1 : WordsFit wb (ws.drop (shift1 wb shift) ++ List.replicate (min (shift1 wb shift) w) 0) :=
    WordsFit.append.2 ⟨fun x hx => hf x (List.mem_of_mem_drop hx), WordsFit.zeros _ _⟩
  have hl1 : (ws.drop (shift1 wb shift) ++ List.replicate (min (shift1 wb shift) w) 0).length = w := by
    simp; omega
  have hv1 := val_dropWords ws hf (shift1 wb shift)
  rw [hl] at hv1
  obtain ⟨b2, h2, ha2⟩ := subWordPass_agrees (s2 := shift2 wb shift)
    (length_subWordLeft wb (shift2 wb shift)) (by rw [(wholeWordLeft_spec h1).1]; exact hc) hl1 ha1
  refine ⟨b2, by unfold shiftLeft; rw [h1]; exact h2, ?_⟩
  generalize ws.drop (shift1 wb shift) ++ List.replicate (min (shift1 wb shift) w) 0 = us at *
  have hs : shift2 wb shift ≤ wb := Nat.le_of_lt (shift2_lt hwb shift)
  have hval : val wb ws <<< shift = val wb ws * 2 ^ (wb * shift1 wb shift) * 2 ^ shift2 wb shift := by
    rw [Nat.shiftLeft_eq, Nat.mul_assoc, ← Nat.pow_add, shift_parts]
  have he : (if shift2 wb shift = 0 then us else subWordLeft wb (shift2 wb shift) us)
      = fromval wb ((val wb ws <<< shift) % 2 ^ (w * wb)) w := by
    split
    · next h0 =>
      refine eq_fromval hf1 hl1 ?_
      rw [hv1, hval, h0, Nat.pow_zero, Nat.mul_one, Nat.mul_comm w wb]
    · refine eq_fromval (subWordLeft_fit hf1) (by rw [length_subWordLeft, hl1]) ?_
      rw [val_subWordLeft hs hf1, hl1, hv1, Nat.mod_mul_mod, hval, Nat.mul_comm w wb]
  rwa [he] at ha2

/-- The two passes of SHR on words that were written where it reads them: the shifted value (R87). -/
theorem shiftRight_agrees {wb w shift : Nat} (hwb : 1 ≤ wb) {b : Buf} {ws : List Nat} (hc : w ≤ b.cap)
    (hl : ws.length = w) (hf : WordsFit wb ws) (h : b.Agrees ws 0 (w - shift1 wb shift)) :
    ∃ b', shiftRight wb w shift b = .ok b' ∧ b'.Agrees (fromval wb (val wb ws >>> shift) w) 0 w := by
  obtain ⟨b1, h1, ha1⟩ := wholeWordRight_agrees hc hl h
  have hf1 : WordsFit wb (List.replicate (min (shift1 wb shift) w) 0 ++ ws.take (w - shift1 wb shift)) :=
    WordsFit.append.2 ⟨WordsFit.zeros _ _, fun x hx => hf x (List.mem_of_mem_take hx)⟩
  have hl1 : (List.replicate (min (shift1 wb shift) w) 0 ++ ws.take (w - shift1 wb shift)).length = w := by
    simp; omega
  have hv1 := val_takeWords ws hf (shift1 wb shift)
  rw [hl] at hv1
  obtain ⟨b2, h2, ha2⟩ := subWordPass_agrees (s2 := shift2 wb shift)
    (length_subWordRight wb (shift2 wb shift)) (by rw [(wholeWordRight_spec h1).1]; exact hc) hl1 ha1
  refine ⟨b2, by unfold shiftRight; rw [h1]; exact h2, ?_⟩
  generalize List.replicate (min (shift1 wb shift) w) 0 ++ ws.take (w - shift1 wb shift) = us at *
  have hs : shift2 wb shift ≤ wb := Nat.le_of_lt (shift2_lt hwb shift)
  have hval : val wb ws >>> shift = val wb ws / 2 ^ (wb * shift1 wb shift) / 2 ^ shift2 wb shift := by
    rw [Nat.shiftRight_eq_div_pow, Nat.div_div_eq_div_mul, ← Nat.pow_add, shift_parts]
  have he : (if shift2 wb shift = 0 then us else subWordRight wb (shift2 wb shift) us)
      = fromval wb (val wb ws >>> shift) w := by
    split
    · next h0 =>
      refine eq_fromval hf1 hl1 ?_
      rw [hv1, hval, h0, Nat.pow_zero, Nat.div_one]
    · refine eq_fromval (subWordRight_fit hf1) (by rw [length_subWordRight, hl1]) ?_
      rw [val_subWordRight hs hf1, hv1, hval]
  rwa [he] at ha2

end Sys2Proof.Machine
end

