-- ==== Sys2Proof/Laws/Scan.lean ====
section
/-!
SUPPORT. What the carry or borrow scan does to the buffer (R100, R102) and to its value (R101, R103).
-/

namespace Sys2Proof.Machine

section
variable {w : Nat} {boundary wrapped : Nat} {absorb : Nat → Nat}

/-- Everything a scan that ends can have done: a word absorbed it, every word to its right being at the
boundary, or every word was at the boundary. -/
theorem propagate_spec {n : Nat} {b b' : Buf} {o : Bool}
    (h : Buf.propagate w boundary wrapped absorb n b = .ok (b', o)) :
    b'.cap = b.cap ∧
      ((o = false ∧ ∃ j x, j < n ∧ b.words.read j = some x ∧ x ≠ boundary ∧
          (∀ k, j < k → k < n → b.words.read k = some boundary) ∧
          ∀ k, b'.words.read k = if k = j then some (absorb x)
            else if j < k ∧ k < n then some wrapped else b.words.read k) ∨
       (o = true ∧ (∀ k, k < n → b.words.read k = some boundary) ∧
          ∀ k, b'.words.read k = if k < n then some wrapped else b.words.read k)) := by
  induction n generalizing b with
  | zero =>
    simp only [Buf.propagate, Except.ok.injEq, Prod.mk.injEq] at h
    obtain ⟨rfl, rfl⟩ := h
    exact ⟨rfl, .inr ⟨rfl, fun k hk => absurd hk (Nat.not_lt_zero k), fun k => by simp⟩⟩
  | succ n ih =>
    simp only [Buf.propagate] at h
    split at h
    · simp at h
    · next x hx =>
      obtain ⟨_, _, hr⟩ := Buf.read_ok.1 hx
      split at h
      · next hne =>
        split at h
        · simp at h
        · next b1 hb1 =>
          simp only [Except.ok.injEq, Prod.mk.injEq] at h
          obtain ⟨rfl, rfl⟩ := h
          obtain ⟨_, _, rfl⟩ := Buf.write_ok.1 hb1
          refine ⟨rfl, .inl ⟨rfl, n, x, by omega, hr, hne, fun k h1 h2 => by omega, fun k => ?_⟩⟩
          dsimp only
          rw [Memory.read_write]
          split
          · rfl
          · rw [if_neg (by omega)]
      · next heq =>
        have heq : x = boundary := by simpa using heq
        subst heq
        split at h
        · simp at h
        · next b1 hb1 =>
          obtain ⟨_, _, rfl⟩ := Buf.write_ok.1 hb1
          obtain ⟨hc, hcase⟩ := ih h
          refine ⟨hc, hcase.imp ?_ ?_⟩
          · rintro ⟨ho, j, y, hj, hy, hne, hb, hk⟩
            have hjn : j ≠ n := Nat.ne_of_lt hj
            refine ⟨ho, j, y, by omega, ?_, hne, fun k h1 h2 => ?_, fun k => ?_⟩
            · dsimp only at hy; rwa [Memory.read_write_of_ne _ _ hjn] at hy
            · by_cases hkn : k = n
              · subst hkn; exact hr
              · have := hb k h1 (by omega)
                dsimp only at this
                rwa [Memory.read_write_of_ne _ _ hkn] at this
            · rw [hk k]
              dsimp only
              rw [Memory.read_write]
              split
              · rfl
              · by_cases hkn : k = n
                · subst hkn; simp [hj]
                · by_cases h3 : j < k ∧ k < n
                  · rw [if_pos h3, if_pos ⟨h3.1, by omega⟩]
                  · rw [if_neg h3, if_neg hkn, if_neg (by omega)]
          · rintro ⟨ho, hb, hk⟩
            refine ⟨ho, fun k h2 => ?_, fun k => ?_⟩
            · by_cases hkn : k = n
              · subst hkn; exact hr
              · have := hb k (by omega)
                dsimp only at this
                rwa [Memory.read_write_of_ne _ _ hkn] at this
            · rw [hk k]
              dsimp only
              rw [Memory.read_write]
              by_cases hkn : k = n
              · subst hkn; simp
              · by_cases h3 : k < n
                · rw [if_pos h3, if_pos (by omega)]
                · rw [if_neg h3, if_neg hkn, if_neg (by omega)]

/-- The scan ends when some word absorbs it and every word to its right is at the boundary. -/
theorem propagate_absorbed {n j x : Nat} {b : Buf} (hw : n ≤ w) (hc : n ≤ b.cap) (hj : j < n)
    (hx : b.words.read j = some x) (hne : x ≠ boundary)
    (hb : ∀ k, j < k → k < n → b.words.read k = some boundary) :
    ∃ b', Buf.propagate w boundary wrapped absorb n b = .ok (b', false) := by
  induction n generalizing b with
  | zero => omega
  | succ n ih =>
    by_cases hjn : j = n
    · subst hjn
      have hrd : b.read w j = .ok x := Buf.read_ok.2 ⟨by omega, by omega, hx⟩
      refine ⟨{ b with words := b.words.write j (absorb x) }, ?_⟩
      simp only [Buf.propagate, hrd]
      rw [if_pos hne, Buf.write_of_lt _ (by omega) (by omega)]
    · have hrd : b.read w n = .ok boundary :=
        Buf.read_ok.2 ⟨by omega, by omega, hb n (by omega) (by omega)⟩
      obtain ⟨b', hb'⟩ := ih (b := { b with words := b.words.write n wrapped }) (by omega)
        (show n ≤ b.cap by omega) (by omega)
        (by dsimp only; rwa [Memory.read_write_of_ne _ _ hjn])
        (fun k h1 h2 => by
          dsimp only
          rw [Memory.read_write_of_ne _ _ (by omega)]
          exact hb k h1 (by omega))
      refine ⟨b', ?_⟩
      simp only [Buf.propagate, hrd]
      rw [if_neg (by simp), Buf.write_of_lt _ (by omega) (by omega)]
      exact hb'

/-- The scan ends when every word is at the boundary. -/
theorem propagate_wrapped {n : Nat} {b : Buf} (hw : n ≤ w) (hc : n ≤ b.cap)
    (hb : ∀ k, k < n → b.words.read k = some boundary) :
    ∃ b', Buf.propagate w boundary wrapped absorb n b = .ok (b', true) := by
  induction n generalizing b with
  | zero => exact ⟨b, rfl⟩
  | succ n ih =>
    have hrd : b.read w n = .ok boundary := Buf.read_ok.2 ⟨by omega, by omega, hb n (by omega)⟩
    obtain ⟨b', hb'⟩ := ih (b := { b with words := b.words.write n wrapped }) (by omega)
      (show n ≤ b.cap by omega)
      (fun k h => by
        dsimp only
        rw [Memory.read_write_of_ne _ _ (by omega)]
        exact hb k (by omega))
    refine ⟨b', ?_⟩
    simp only [Buf.propagate, hrd]
    rw [if_neg (by simp), Buf.write_of_lt _ (by omega) (by omega)]
    exact hb'

/-- Within the window the scan faults only because of a word the caller never wrote, every word to its right
being at the boundary (R171). -/
theorem propagate_error {n : Nat} {b : Buf} {f : Fault} (hw : n ≤ w) (hc : n ≤ b.cap)
    (h : Buf.propagate w boundary wrapped absorb n b = .error f) :
    f = .unwrittenWord ∧ ∃ j, j < n ∧ b.words.read j = none ∧
      ∀ k, j < k → k < n → b.words.read k = some boundary := by
  induction n generalizing b with
  | zero => simp [Buf.propagate] at h
  | succ n ih =>
    simp only [Buf.propagate] at h
    split at h
    · next g hg =>
      simp only [Except.error.injEq] at h
      subst h
      obtain ⟨h1, h2⟩ := Buf.read_error (by omega) (by omega) hg
      exact ⟨h1, n, by omega, h2, fun k _ _ => by omega⟩
    · next x hx =>
      rw [Buf.write_of_lt _ (by omega) (by omega), Buf.write_of_lt _ (by omega) (by omega)] at h
      dsimp only at h
      split at h
      · simp at h
      · next heq =>
        have heq : x = boundary := by simpa using heq
        subst heq
        obtain ⟨h1, j, hj, h2, h3⟩ := ih (b := { b with words := b.words.write n wrapped }) (by omega)
          (show n ≤ b.cap by omega) h
        dsimp only at h2 h3
        refine ⟨h1, j, by omega, ?_, fun k hk hk' => ?_⟩
        · rwa [Memory.read_write_of_ne _ _ (by omega)] at h2
        · by_cases hkn : k = n
          · subst hkn; exact (Buf.read_ok.1 hx).2.2
          · have := h3 k hk (by omega)
            rwa [Memory.read_write_of_ne _ _ hkn] at this

theorem propagate_good {wb n : Nat} {b b' : Buf} {o : Bool} (hb : b.Good wb) (hwr : wrapped ≤ typeMax wb)
    (hab : ∀ x, x ≤ typeMax wb → x ≠ boundary → absorb x ≤ typeMax wb)
    (h : Buf.propagate w boundary wrapped absorb n b = .ok (b', o)) : b'.Good wb := by
  induction n generalizing b with
  | zero =>
    simp only [Buf.propagate, Except.ok.injEq, Prod.mk.injEq] at h
    exact h.1 ▸ hb
  | succ n ih =>
    simp only [Buf.propagate] at h
    split at h
    · simp at h
    · next x hx =>
      obtain ⟨_, hc, hr⟩ := Buf.read_ok.1 hx
      split at h
      · next hne =>
        split at h
        · simp at h
        · next b1 hb1 =>
          simp only [Except.ok.injEq, Prod.mk.injEq] at h
          obtain ⟨rfl, rfl⟩ := h
          obtain ⟨_, _, rfl⟩ := Buf.write_ok.1 hb1
          exact hb.put hc (hab x (hb.read_le hr) hne)
      · split at h
        · simp at h
        · next b1 hb1 =>
          obtain ⟨_, _, rfl⟩ := Buf.write_ok.1 hb1
          exact ih (hb.put hc hwr) h

end

theorem carryScan_good {wb w : Nat} {b b' : Buf} {o : Bool} (hb : b.Good wb)
    (h : carryScan wb w b = .ok (b', o)) : b'.Good wb :=
  propagate_good hb (Nat.zero_le _) (fun x h1 h2 => by omega) h

theorem borrowScan_good {wb w : Nat} {b b' : Buf} {o : Bool} (hb : b.Good wb)
    (h : borrowScan wb w b = .ok (b', o)) : b'.Good wb :=
  propagate_good hb (Nat.le_refl _) (fun x h1 h2 => by omega) h

/-! ## The scans as numbers -/

/-- A run of words at TYPE_MAX is one less than the power of two above it. -/
theorem val_allOnes (wb n : Nat) : val wb (List.replicate n (typeMax wb)) + 1 = 2 ^ (wb * n) := by
  induction n with
  | zero => rfl
  | succ n ih =>
    rw [List.replicate_succ, val_cons, List.length_replicate, Nat.add_assoc, ih, Nat.mul_succ,
        Nat.add_comm (wb * n),
      Nat.pow_add]
    have := Nat.two_pow_pos wb
    calc typeMax wb * 2 ^ (wb * n) + 2 ^ (wb * n) = (typeMax wb + 1) * 2 ^ (wb * n) := by ring
      _ = 2 ^ wb * 2 ^ (wb * n) := by rw [typeMax, Nat.sub_add_cancel this]

/-- The digit identity of R101: a word below the boundary absorbs the carry of a run of TYPE_MAX words. -/
theorem val_carry (wb : Nat) (a : List Nat) (x n : Nat) :
    val wb (a ++ (x + 1) :: List.replicate n 0) = val wb (a ++ x :: List.replicate n (typeMax wb)) + 1 := by
  have h := val_allOnes wb n
  rw [val_append, val_append, val_cons, val_cons, val_zeros]
  simp only [List.length_cons, List.length_replicate]
  rw [Nat.add_assoc, Nat.add_assoc, h]
  ring

end Sys2Proof.Machine
end

