-- ==== Sys2Proof/Laws/Exec.lean ====
section
/-!
SUPPORT. What each meaning can answer, once: if it answers next t,
    then one of these cases holds. Later proofs cite
these and do not unfold a meaning.
-/

namespace Sys2Proof.Machine

theorem badLength_eq_false {cap : Nat} {w : Int} : badLength cap w = false ↔ 0 < w ∧ w ≤ (cap : Int) := by
  simp [badLength]

theorem badLength_eq_true {cap : Nat} {w : Int} : badLength cap w = true ↔ w ≤ 0 ∨ (cap : Int) < w := by
  simp [badLength]

theorem badShift_eq_false {shift : Int} : badShift shift = false ↔ 0 ≤ shift := by simp [badShift]

theorem badShift_eq_true {shift : Int} : badShift shift = true ↔ shift < 0 := by simp [badShift]

theorem badTcap_eq_false {wb : Nat} {w tcap : Int} : badTcap wb w tcap = false ↔ w * wb + 1 ≤ tcap := by
  simp [badTcap]

theorem badTcap_eq_true {wb : Nat} {w tcap : Int} : badTcap wb w tcap = true ↔ tcap < w * wb + 1 := by
  simp [badTcap]

/-! ## Errors -/

theorem exec_badLength {i : Instr} {s : State} (h : badLength s.storage.buf.cap i.w = true) :
    exec i s = .next (s.raise .invalidLength) := by
  cases i <;> simp_all [exec, execShl, execShr, execInc, execDec, execFmts, execFmtb, Instr.w]

/-! ## SHL and SHR -/

theorem execShl_valid {w shift : Int} {s : State} (hl : badLength s.storage.buf.cap w = false)
    (hs : badShift shift = false) :
    exec (.shl w shift) s = s.finishBuf false (shiftLeft s.wb w.toNat shift.toNat s.storage.buf) := by
  simp [exec, execShl, hl, hs]

theorem execShr_valid {w shift : Int} {s : State} (hl : badLength s.storage.buf.cap w = false)
    (hs : badShift shift = false) :
    exec (.shr w shift) s = s.finishBuf false (shiftRight s.wb w.toNat shift.toNat s.storage.buf) := by
  simp [exec, execShr, hl, hs]

theorem execShl_next {w shift : Int} {s t : State} (h : exec (.shl w shift) s = .next t) :
    (badLength s.storage.buf.cap w = true ∧ t = s.raise .invalidLength) ∨
    (badLength s.storage.buf.cap w = false ∧ badShift shift = true ∧ t = s.raise .invalidShiftAmount) ∨
    (badLength s.storage.buf.cap w = false ∧ badShift shift = false ∧
      ∃ b, shiftLeft s.wb w.toNat shift.toNat s.storage.buf = .ok b ∧
        t = (s.setBuf b).respond (Response.success 0 false)) := by
  cases hl : badLength s.storage.buf.cap w with
  | true => simp [exec, execShl, hl] at h; exact .inl ⟨rfl, by simp [h]⟩
  | false =>
    cases hs : badShift shift with
    | true => simp [exec, execShl, hl, hs] at h; exact .inr (.inl ⟨rfl, rfl, by simp [h]⟩)
    | false =>
      rw [execShl_valid hl hs] at h
      cases hb : shiftLeft s.wb w.toNat shift.toNat s.storage.buf with
      | error f => simp [hb, State.finishBuf] at h
      | ok b => simp [hb, State.finishBuf] at h; exact .inr (.inr ⟨rfl, rfl, b, rfl, h.symm⟩)

theorem execShr_next {w shift : Int} {s t : State} (h : exec (.shr w shift) s = .next t) :
    (badLength s.storage.buf.cap w = true ∧ t = s.raise .invalidLength) ∨
    (badLength s.storage.buf.cap w = false ∧ badShift shift = true ∧ t = s.raise .invalidShiftAmount) ∨
    (badLength s.storage.buf.cap w = false ∧ badShift shift = false ∧
      ∃ b, shiftRight s.wb w.toNat shift.toNat s.storage.buf = .ok b ∧
        t = (s.setBuf b).respond (Response.success 0 false)) := by
  cases hl : badLength s.storage.buf.cap w with
  | true => simp [exec, execShr, hl] at h; exact .inl ⟨rfl, by simp [h]⟩
  | false =>
    cases hs : badShift shift with
    | true => simp [exec, execShr, hl, hs] at h; exact .inr (.inl ⟨rfl, rfl, by simp [h]⟩)
    | false =>
      rw [execShr_valid hl hs] at h
      cases hb : shiftRight s.wb w.toNat shift.toNat s.storage.buf with
      | error f => simp [hb, State.finishBuf] at h
      | ok b => simp [hb, State.finishBuf] at h; exact .inr (.inr ⟨rfl, rfl, b, rfl, h.symm⟩)

/-! ## INC and DEC -/

theorem execInc_valid {w : Int} {s : State} (hl : badLength s.storage.buf.cap w = false) :
    exec (.inc w) s = s.finishScan (carryScan s.wb w.toNat s.storage.buf) := by
  simp [exec, execInc, hl]

theorem execDec_valid {w : Int} {s : State} (hl : badLength s.storage.buf.cap w = false) :
    exec (.dec w) s = s.finishScan (borrowScan s.wb w.toNat s.storage.buf) := by
  simp [exec, execDec, hl]

theorem execInc_next {w : Int} {s t : State} (h : exec (.inc w) s = .next t) :
    (badLength s.storage.buf.cap w = true ∧ t = s.raise .invalidLength) ∨
    (badLength s.storage.buf.cap w = false ∧
      ∃ b o, carryScan s.wb w.toNat s.storage.buf = .ok (b, o) ∧
        t = (s.setBuf b).respond (Response.success 0 o)) := by
  cases hl : badLength s.storage.buf.cap w with
  | true => simp [exec, execInc, hl] at h; exact .inl ⟨rfl, by simp [h]⟩
  | false =>
    rw [execInc_valid hl] at h
    cases hb : carryScan s.wb w.toNat s.storage.buf with
    | error f => simp [hb, State.finishScan] at h
    | ok r =>
      obtain ⟨b, o⟩ := r
      simp [hb, State.finishScan, State.finishBuf] at h
      exact .inr ⟨rfl, b, o, rfl, h.symm⟩

theorem execDec_next {w : Int} {s t : State} (h : exec (.dec w) s = .next t) :
    (badLength s.storage.buf.cap w = true ∧ t = s.raise .invalidLength) ∨
    (badLength s.storage.buf.cap w = false ∧
      ∃ b o, borrowScan s.wb w.toNat s.storage.buf = .ok (b, o) ∧
        t = (s.setBuf b).respond (Response.success 0 o)) := by
  cases hl : badLength s.storage.buf.cap w with
  | true => simp [exec, execDec, hl] at h; exact .inl ⟨rfl, by simp [h]⟩
  | false =>
    rw [execDec_valid hl] at h
    cases hb : borrowScan s.wb w.toNat s.storage.buf with
    | error f => simp [hb, State.finishScan] at h
    | ok r =>
      obtain ⟨b, o⟩ := r
      simp [hb, State.finishScan, State.finishBuf] at h
      exact .inr ⟨rfl, b, o, rfl, h.symm⟩

/-! ## FMTS and FMTB -/

theorem execFmts_next {w : Int} {s t : State} (h : exec (.fmts w) s = .next t) :
    (badLength s.storage.buf.cap w = true ∧ t = s.raise .invalidLength) ∨
    (badLength s.storage.buf.cap w = false ∧
      ∃ ws, s.storage.buf.readRun w.toNat 0 w.toNat = .ok ws ∧
        t = (s.sinkPut (streamText s.wb ws)).respond (Response.success (bitWidth s.wb w.toNat) false)) := by
  cases hl : badLength s.storage.buf.cap w with
  | true => simp [exec, execFmts, hl] at h; exact .inl ⟨rfl, by simp [h]⟩
  | false =>
    cases hr : s.storage.buf.readRun w.toNat 0 w.toNat with
    | error f => simp [exec, execFmts, hl, hr] at h
    | ok ws => simp [exec, execFmts, hl, hr] at h; exact .inr ⟨rfl, ws, rfl, h.symm⟩

theorem execFmtb_next {w tcap : Int} {s t : State} (h : exec (.fmtb w tcap) s = .next t) :
    (badLength s.storage.buf.cap w = true ∧ t = s.raise .invalidLength) ∨
    (badLength s.storage.buf.cap w = false ∧ badTcap s.wb w tcap = true ∧ t = s.raise .bufferTooSmall) ∨
    (badLength s.storage.buf.cap w = false ∧ badTcap s.wb w tcap = false ∧
      s.storage.overlaps w.toNat tcap.toNat = false ∧
      ∃ ws x, s.storage.buf.readRun w.toNat 0 w.toNat = .ok ws ∧
        writeTxtRun tcap.toNat s.storage.txt 0 (bufferText s.wb ws) = .ok x ∧
        t = (s.setTxt x).respond (Response.success (bitWidth s.wb w.toNat) false)) := by
  cases hl : badLength s.storage.buf.cap w with
  | true => simp [exec, execFmtb, hl] at h; exact .inl ⟨rfl, by simp [h]⟩
  | false =>
    cases ht : badTcap s.wb w tcap with
    | true => simp [exec, execFmtb, hl, ht] at h; exact .inr (.inl ⟨rfl, rfl, by simp [h]⟩)
    | false =>
      cases ho : s.storage.overlaps w.toNat tcap.toNat with
      | true => simp [exec, execFmtb, hl, ht, ho] at h
      | false =>
        cases hr : s.storage.buf.readRun w.toNat 0 w.toNat with
        | error f => simp [exec, execFmtb, hl, ht, ho, hr] at h
        | ok ws =>
          cases hx : writeTxtRun tcap.toNat s.storage.txt 0 (bufferText s.wb ws) with
          | error f => simp [exec, execFmtb, hl, ht, ho, hr, hx] at h
          | ok x =>
            simp [exec, execFmtb, hl, ht, ho, hr, hx] at h
            exact .inr (.inr ⟨rfl, rfl, rfl, ws, x, rfl, hx, h.symm⟩)

end Sys2Proof.Machine
end

