-- ==== Sys2Proof/Laws/Invariant.lean ====
section
/-!
SUPPORT. What keeps the invariant: each operation on a storage and on the state.
-/

namespace Sys2Proof.Machine

/-! ## A storage and its place in the state -/

theorem initial_wf (wb : Nat) : Storage.initial.wf wb := by
  refine ⟨Nat.le_refl 1, List.Pairwise.nil, ?_, List.Pairwise.nil⟩
  intro c hc; cases hc

theorem storageAt_wf {s : State} (h : s.Inv) (k : Nat) : (s.storageAt k).wf s.wb := by
  unfold State.storageAt
  cases hr : Memory.read s.stores k with
  | none => exact initial_wf _
  | some st => exact (h.2.2 _ (Memory.mem_of_read hr)).2

theorem setStorageAt_inv {s : State} (h : s.Inv) (k : Nat) {st : Storage} (hs : st.wf s.wb) :
    (s.setStorageAt k st).Inv := by
  obtain ⟨h1, h2, h3⟩ := h
  unfold State.setStorageAt
  split
  · refine ⟨h1, Memory.wf_erase h2 k, fun e he => h3 e ?_⟩
    exact (List.mem_filter.1 he).1
  · next hne =>
    refine ⟨h1, Memory.wf_write h2 k st, fun e he => ?_⟩
    rcases Memory.mem_write he with rfl | he
    · exact ⟨hne, hs⟩
    · exact h3 e he

theorem storage_good {s : State} (h : s.Inv) : s.storage.buf.Good s.wb :=
  let w := storageAt_wf h s.active
  ⟨w.1, w.2.1, w.2.2.1⟩

theorem setBuf_inv {s : State} (h : s.Inv) {b : Buf} (hb : b.Good s.wb) : (s.setBuf b).Inv :=
  setStorageAt_inv h _ ⟨hb.1, hb.2.1, hb.2.2, (storageAt_wf h s.active).2.2.2⟩

theorem setTxt_inv {s : State} (h : s.Inv) {x : List Host.Cell} (hb : Memory.wf x) : (s.setTxt x).Inv :=
  let w := storageAt_wf h s.active
  setStorageAt_inv h _ ⟨w.1, w.2.1, w.2.2.1, hb⟩

theorem setSink_inv {s : State} (h : s.Inv) (x : List Char8) : (s.setStorage { s.storage with sink := x}).Inv :=
  let w := storageAt_wf h s.active
  setStorageAt_inv h _ ⟨w.1, w.2.1, w.2.2.1, w.2.2.2⟩

theorem fill_good {s : State} (h : s.Inv) {w : Nat} (hw : w ≤ s.storage.buf.cap) (f : Nat → Nat) :
    Buf.Good s.wb { s.storage.buf with
      words := Memory.fill (fun k => trunc s.wb (f k)) w s.storage.buf.words } := by
  obtain ⟨h1,h2,h3⟩ := storage_good h
  refine ⟨h1, Memory.wf_fill _ h2 _, fun c hc => ?_⟩
  rcases Memory.mem_fill hc with ⟨a, b⟩ | hc
  · exact ⟨by dsimp only; omega, b ▸ trunc_le_typeMax _ _⟩
  · exact h3 c hc

/-! ## Success -/

theorem succeeded_iff (t : State) : t.succeeded = true ↔ t.hasStatus .ok := by
  unfold State.succeeded State.hasStatus
  split <;> simp_all

end Sys2Proof.Machine
end

