-- ==== Sys2Proof/Laws/PerInstr.lean ====
section
/-!
SUPPORT. The family RoundTrip: decoding an encoded instruction gives it back, on unbounded operands,
    one lemma per
constructor (R61, R62).
-/

namespace Sys2Proof.Laws.RoundTrip

/-- The decoder reads the instruction from the command that encodes it. -/
def Statement (i : Instr) : Prop := decode (encode i) = .ok i

theorem shl (w shift : Int) : Statement (.shl w shift) := rfl
theorem shr (w shift : Int) : Statement (.shr w shift) := rfl
theorem inc (w : Int) : Statement (.inc w) := rfl
theorem dec (w : Int) : Statement (.dec w) := rfl
theorem fmts (w : Int) : Statement (.fmts w) := rfl
theorem fmtb (w tcap : Int) : Statement (.fmtb w tcap) := rfl

end Sys2Proof.Laws.RoundTrip
end

