-- ==== Sys2Proof/Laws/Window.lean ====
section
/-!
SUPPORT. What an operation reads: on buffers that agree on CAP and the words `[0, W)` it answers alike,
    and it fails only on a
word nobody wrote.
-/

namespace Sys2Proof.Machine

/-! ## Agreement on the words of a command -/

/-- The two buffers agree on CAP, at least `w`, and on the words `[0, W)`. -/
def Buf.SameWindow (w : Nat) (b b' : Buf) : Prop := b.cap = b'.cap ∧ w ≤ b.cap ∧ ∀ k, k < w →
    b.words.read k = b'.words.read k

theorem readRun_congr {b b' : Buf} {w k n : Nat} (hw : k + n ≤ w) (hc : k + n ≤ b.cap) (hcap : b.cap = b'.cap)
   (h : ∀ k, k < w → b.words.read k = b'.words.read k) : b.readRun w k n = b'.readRun w k n := by
  induction n generalizing k with
  | zero => rfl
  | succ n ih =>
    have : b.read w k = b'.read w k := by simp only [Buf.read, hcap, h k (by omega)]
    simp only [Buf.readRun, this]
    rw [ih (by omega) (by omega)]

theorem writeRun_congr {w : Nat} {b b' b1 : Buf} {k : Nat} {vs : List Nat} (h : Buf.SameWindow w b b')
    (hb : Buf.writeRun w b k vs = .ok b1) (hk : k + vs.length ≤ w):
  ∃ b2, Buf.writeRun w b' k vs = .ok b2 ∧ Buf.SameWindow w b1 b2 := by
  obtain ⟨h1, h2, h3⟩ := h
  obtain ⟨b2, hb2⟩ := Buf.writeRun_of_lt (w := w) (b := b') (k := k) (vs := vs) hk (by omega)
  obtain ⟨c1, r1⟩ := Buf.writeRun_spec hb
  obtain ⟨c2, r2⟩ := Buf.writeRun_spec hb2
  refine ⟨b2, hb2, by rw [c1, c2, h1], by omega, fun j hj => ?_⟩
  rw [r1, r2, h3 j hj]

theorem wholeWordLeft_congr {w s1 : Nat} {b b' b1 : Buf} (h : Buf.SameWindow w b b')
    (hb : wholeWordLeft w s1 b = .ok b1) :
   ∃ b2, wholeWordLeft w s1 b' = .ok b2 ∧ Buf.SameWindow w b1 b2 := by
  unfold wholeWordLeft at *
  split at hb
  · next h0 => rw [if_pos h0]; cases hb; exact ⟨b', rfl, h⟩
  · next h0 =>
    rw [if_neg h0]
    by_cases hs : s1 ≤ w
    · rw [readRun_congr (by omega) (by have := h.2.1; omega) h.1 h.2.2] at hb
      split at hb
      · cases hb
      · next ws hws =>
        have := (Buf.readRun_ok hws).1
        exact writeRun_congr h hb (by simp; omega)
    · rw [show w - s1 = 0 by omega] at hb ⊢
      exact writeRun_congr h hb (by simp)

theorem wholeWordRight_congr {w s1 : Nat} {b b' b1 : Buf} (h : Buf.SameWindow w b b')
    (hb : wholeWordRight w s1 b = .ok b1) :
   ∃ b2, wholeWordRight w s1 b' = .ok b2 ∧ Buf.SameWindow w b1 b2 := by
  unfold wholeWordRight at *
  split at hb
  · next h0 => rw [if_pos h0]; cases hb; exact ⟨b', rfl, h⟩
  · next h0 =>
    rw [if_neg h0]
    rw [readRun_congr (by omega) (by have := h.2.1; omega) h.1 h.2.2] at hb
    split at hb
    · cases hb
    · next ws hws =>
        have := (Buf.readRun_ok hws).1
        exact writeRun_congr h hb (by simp; omega)

theorem subWordPass_congr {pass : List Nat → List Nat} (hp : ∀ ws, (pass ws).length = ws.length)
    {w s2 : Nat} {b b' b1 : Buf} (h : Buf.SameWindow w b b') (hb : subWordPass pass w s2 b = .ok b1) :
   ∃ b2, subWordPass pass w s2 b' = .ok b2 ∧ Buf.SameWindow w b1 b2 := by
  unfold subWordPass at *
  split at hb
  · next h0 => rw [if_pos h0]; cases hb; exact ⟨b', rfl, h⟩
  · next h0 =>
    rw [if_neg h0]
    rw [readRun_congr (by omega) (by have := h.2.1; omega) h.1 h.2.2] at hb
    split at hb
    · cases hb
    · next ws hws =>
        have := (Buf.readRun_ok hws).1
        exact writeRun_congr h hb (by rw [hp]; omega)

theorem shiftLeft_congr {wb w sh : Nat} {b b' b1 : Buf} (h : Buf.SameWindow w b b')
    (hb : shiftLeft wb w sh b = .ok b1) :
   ∃ b2, shiftLeft wb w sh b' = .ok b2 ∧ Buf.SameWindow w b1 b2 := by
  unfold shiftLeft at *
  split at hb
  · cases hb
  · next c hc =>
    obtain ⟨c', e, h'⟩ := wholeWordLeft_congr h hc
    rw [e]
    exact subWordPass_congr (length_subWordLeft _ _) h' hb

theorem shiftRight_congr {wb w sh : Nat} {b b' b1 : Buf} (h : Buf.SameWindow w b b')
    (hb : shiftRight wb w sh b = .ok b1) :
   ∃ b2, shiftRight wb w sh b' = .ok b2 ∧ Buf.SameWindow w b1 b2 := by
  unfold shiftRight at *
  split at hb
  · cases hb
  · next c hc =>
    obtain ⟨c', e, h'⟩ := wholeWordRight_congr h hc
    rw [e]
    exact subWordPass_congr (length_subWordRight _ _) h' hb

theorem propagate_congr {w bd wr : Nat} {ab : Nat → Nat} {n : Nat} {b b' b1 : Buf} {o : Bool}
    (h : Buf.SameWindow w b b') (hn : n ≤ w) (hb : Buf.propagate w bd wr ab n b = .ok (b1, o)) :
   ∃ b2, Buf.propagate w bd wr ab n b' = .ok (b2, o) ∧ Buf.SameWindow w b1 b2 := by
  induction n generalizing b b' with
  | zero => cases hb; exact ⟨b', rfl, h⟩
  | succ n ih =>
    have hrd : b.read w n = b'.read w n := by simp only [Buf.read, h.1, h.2.2 n (by omega)]
    simp only [Buf.propagate] at *
    rw [hrd] at hb
    have wr' : ∀ v, Buf.SameWindow w { b with words := b.words.write n v }
        { b' with words := b'.words.write n v } := by
      intro v
      refine ⟨h.1, h.2.1, fun k hk => ?_⟩
      dsimp only
      rw [Memory.read_write, Memory.read_write, h.2.2 k hk]
    have hc := h.2.1
    have hc' := h.1
    split at hb
    · cases hb
    · next x hx =>
      split at hb
      · next hne =>
        rw [if_pos hne]
        rw [Buf.write_of_lt _ (by omega) (by omega)] at hb ⊢
        cases hb
        exact ⟨_, rfl, wr' _⟩
      · next hne =>
        rw [if_neg hne]
        rw [Buf.write_of_lt _ (by omega) (by omega)] at hb ⊢
        exact ih (wr' _) (by omega) hb

/-! ## Unwritten words -/

theorem wholeWordLeft_error {w s1 : Nat} {b : Buf} {f : Fault} (hc : w ≤ b.cap)
    (h : wholeWordLeft w s1 b = .error f) : f = .unwrittenWord ∧ ∃ k, k < w ∧ b.words.read k = none := by
  unfold wholeWordLeft at h
  split at h
  · cases h
  · by_cases hs : s1 ≤ w
    · split at h
      · next g hg =>
        cases h
        obtain ⟨h1, j, hj, h2⟩ := Buf.readRun_error (by omega) (by omega) hg
        exact ⟨h1, _, by omega, h2⟩
      · next ws hws =>
        have := (Buf.readRun_ok hws).1
        obtain ⟨b', hb'⟩ := Buf.writeRun_of_lt (w := w) (b := b) (k := 0)
            (vs := ws ++ List.replicate (min s1 w) 0) (by simp; omega) (by simp; omega)
        rw [hb'] at h; cases h
    · rw [show w - s1 = 0 by omega] at h
      simp only [Buf.readRun] at h
      obtain ⟨b', hb'⟩ := Buf.writeRun_of_lt (w := w) (b := b) (k := 0)
          (vs := [] ++ List.replicate (min s1 w) 0) (by simp) (by simp; omega)
      rw [hb'] at h; cases h

theorem wholeWordRight_error {w s1 : Nat} {b : Buf} {f : Fault} (hc : w ≤ b.cap)
    (h : wholeWordRight w s1 b = .error f) : f = .unwrittenWord ∧ ∃ k, k < w ∧ b.words.read k = none := by
  unfold wholeWordRight at h
  split at h
  · cases h
  · split at h
    · next g hg =>
        cases h
        obtain ⟨h1, j, hj, h2⟩ := Buf.readRun_error (by omega) (by omega) hg
        exact ⟨h1, _, by omega, h2⟩
    · next ws hws =>
        have := (Buf.readRun_ok hws).1
        obtain ⟨b', hb'⟩ := Buf.writeRun_of_lt (w := w) (b := b) (k := 0) (vs := List.replicate (min s1 w)
            0 ++ ws) (by simp; omega) (by simp; omega)
        rw [hb'] at h; cases h

theorem subWordPass_error {pass : List Nat → List Nat} (hp : ∀ ws, (pass ws).length = ws.length)
    {w s2 : Nat} {b : Buf} {f : Fault} (hc : w ≤ b.cap) (h : subWordPass pass w s2 b = .error f) :
    f = .unwrittenWord ∧ ∃ k, k < w ∧ b.words.read k = none := by
  unfold subWordPass at h
  split at h
  · cases h
  · split at h
    · next g hg =>
        cases h
        obtain ⟨h1, j, hj, h2⟩ := Buf.readRun_error (by omega) (by omega) hg
        exact ⟨h1, _, by omega, h2⟩
    · next ws hws =>
        have := (Buf.readRun_ok hws).1
        obtain ⟨b', hb'⟩ := Buf.writeRun_of_lt (w := w) (b := b) (k := 0) (vs := pass ws)
            (by rw [hp]; omega) (by rw [hp]; omega)
        rw [hb'] at h; cases h

theorem shiftLeft_error {wb w sh : Nat} {b : Buf} {f : Fault} (hc : w ≤ b.cap)
    (h : shiftLeft wb w sh b = .error f) : f = .unwrittenWord ∧ ∃ k, k < w ∧ b.words.read k = none := by
  unfold shiftLeft at h
  split at h
  · next g hg => cases h; exact wholeWordLeft_error hc hg
  · next b' hb' =>
    obtain ⟨c, r, _⟩ := wholeWordLeft_spec hb'
    obtain ⟨h1, k, hk, h2⟩ := subWordPass_error (length_subWordLeft _ _) (by omega) h
    refine ⟨h1, ?_⟩
    rw [r k hk] at h2
    split at h2
    · exact ⟨_, by assumption, h2⟩
    · split at h2
      · exact ⟨_, hk, h2⟩
      · cases h2

theorem shiftRight_error {wb w sh : Nat} {b : Buf} {f : Fault} (hc : w ≤ b.cap)
    (h : shiftRight wb w sh b = .error f) : f = .unwrittenWord ∧ ∃ k, k < w ∧ b.words.read k = none := by
  unfold shiftRight at h
  split at h
  · next g hg => cases h; exact wholeWordRight_error hc hg
  · next b' hb' =>
    obtain ⟨c, r, _⟩ := wholeWordRight_spec hb'
    obtain ⟨h1, k, hk, h2⟩ := subWordPass_error (length_subWordRight _ _) (by omega) h
    refine ⟨h1, ?_⟩
    rw [r k hk] at h2
    split at h2
    · exact ⟨_, by omega, h2⟩
    · cases h2

theorem propagate_frame {w n bd wr : Nat} {ab : Nat → Nat} {b b' : Buf} {o : Bool}
    (h : Buf.propagate w bd wr ab n b = .ok (b', o)) :
  b'.cap = b.cap ∧ ∀ k, n ≤ k → b'.words.read k = b.words.read k := by
  obtain ⟨hc, h⟩ := propagate_spec h
  refine ⟨hc, fun k hk => ?_⟩
  rcases h with ⟨-, j, x, hj, -, -, -, hr⟩ | ⟨-, -, hr⟩
  · rw [hr, if_neg (by omega), if_neg (by omega)]
  · rw [hr, if_neg (by omega)]

theorem propagate_unwritten {w bd wr : Nat} {ab : Nat → Nat} {n k : Nat} {b : Buf} (hn : n ≤ w)
    (hc : n ≤ b.cap) (hk : k < n) (hr : b.words.read k = none)
   (hall : ∀ j, k < j → j < n → b.words.read j = some bd) :
       Buf.propagate w bd wr ab n b = .error .unwrittenWord := by
  cases h : Buf.propagate w bd wr ab n b with
  | error f => rw [(propagate_error hn hc h).1]
  | ok r =>
    obtain ⟨b', o⟩ := r
    rcases (propagate_spec h).2 with ⟨-, j, x, hj, hx, hne, hall', -⟩ | ⟨-, hall', -⟩
    · rcases Nat.lt_trichotomy k j with h1 | h1 | h1
      · have := hall j h1 hj; rw [hx] at this; cases this; exact absurd rfl hne
      · subst h1; rw [hr] at hx; cases hx
      · have := hall' k h1 hk; rw [hr] at this; cases this
    · have := hall' k hk; rw [hr] at this; cases this

end Sys2Proof.Machine
end

