-- ==== Sys2Proof/Tests/Slice0.lean ====
section
/-!
SUPPORT. The model's own tests. Expected results come from 95_test_vectors.md (the vector is named) or are read off a
rule by hand; the witnesses at the end show, for each statement with hypotheses, a state and operands that meet them.
-/

namespace Sys2Proof.Tests

open Sys2Proof Sys2Proof.Machine

/-! ## Small states -/

/-- Storage number 0: a buffer of `cap` words whose first words are the listed ones. -/
def oneBuffer (cap : Nat) (ws : List Nat) : Storage :=
  { buf := { cap := cap, words := (List.range ws.length).zip ws }, txt := [], sink := [], shared := [] }

/-- An instance of `wb` bits whose storage number 0 is such a buffer. -/
def small (wb cap : Nat) (ws : List Nat) : State :=
  { State.reset with params := { wordBits := wb }, stores := [(0, oneBuffer cap ws)] }

/-- The words, of the first `n`, that the state's storage number 0 holds. -/
def wordsOf (t : State) (n : Nat) : List (Option Nat) := (List.range n).map t.storage.buf.words.read

/-- The command completes with this response and leaves these words. -/
def completes (i : Instr) (s : State) (ws : List Nat) (r : Response) : Bool :=
  match exec i s with
  | .next t => decide (t.response = some r) && decide (wordsOf t ws.length = ws.map some)
  | .fault _ | .refused _ => false

/-- What the command handed to the sink, with its response. -/
def emits (i : Instr) (s : State) (cs : List Char8) (r : Response) : Bool :=
  match exec i s with
  | .next t => decide (t.response = some r) && decide (t.storage.sink = cs)
  | .fault _ | .refused _ => false

/-- What Txt holds after the command, with its response. -/
def writesText (i : Instr) (s : State) (cells : List Host.Cell) (r : Response) : Bool :=
  match exec i s with
  | .next t => decide (t.response = some r) && decide (t.storage.txt = cells)
  | .fault _ | .refused _ => false

/-- `OK / count / wrap` -/
def ok (count : Nat) (wrap : Bool) : Response := { status := .ok, count := count, wrap := wrap }

/-- `E / 0 / 0` -/
def err (e : Status) : Response := { status := e, count := 0, wrap := false }

/-! ## Well-formedness: each check refuses an ill-formed term (R60, R63) -/

/-- Ports of 8, 4 and 3 bits. -/
def narrow : Ports := { wBits := 8, shiftBits := 4, tcapBits := 3 }

theorem test_wellFormed_edges :
    Instr.wellFormed narrow (.shl 127 7) ∧ Instr.wellFormed narrow (.shr (-128) (-8)) ∧
      Instr.wellFormed narrow (.fmtb 127 (-4)) := by decide
theorem test_wellFormed_shl_w : Instr.wellFormed narrow (.shl 128 7) = false := by decide
theorem test_wellFormed_shl_shift : Instr.wellFormed narrow (.shl 1 8) = false := by decide
theorem test_wellFormed_shr_w : Instr.wellFormed narrow (.shr (-129) 0) = false := by decide
theorem test_wellFormed_shr_shift : Instr.wellFormed narrow (.shr 1 (-9)) = false := by decide
theorem test_wellFormed_inc : Instr.wellFormed narrow (.inc 128) = false := by decide
theorem test_wellFormed_dec : Instr.wellFormed narrow (.dec (-129)) = false := by decide
theorem test_wellFormed_fmts : Instr.wellFormed narrow (.fmts 128) = false := by decide
theorem test_wellFormed_fmtb_w : Instr.wellFormed narrow (.fmtb 128 0) = false := by decide
theorem test_wellFormed_fmtb_tcap : Instr.wellFormed narrow (.fmtb 1 4) = false := by decide

/-! ## Decoding: OP written out from R61's match column, operands as signed ports (R63) -/

theorem test_decode_shl : decode { op := 0b00000001#8, w := 4, shift := 9, tcap := -7 } = .ok (.shl 4 9) := by decide
theorem test_decode_shr : decode { op := 0b00000010#8, w := 2, shift := -8, tcap := 5 } = .ok (.shr 2 (-8)) := by
  decide
theorem test_decode_inc : decode { op := 0b00000011#8, w := 3, shift := 1, tcap := 1 } = .ok (.inc 3) := by decide
theorem test_decode_dec : decode { op := 0b00000100#8, w := -3, shift := 1, tcap := 1 } = .ok (.dec (-3)) := by
  decide
theorem test_decode_fmts : decode { op := 0b00000101#8, w := 8, shift := 1, tcap := 1 } = .ok (.fmts 8) := by decide
theorem test_decode_fmtb : decode { op := 0b00000110#8, w := 4, shift := 9, tcap := 33 } = .ok (.fmtb 4 33) := by
  decide
theorem test_decode_reserved :
    decode { op := 0x00#8, w := 2, shift := 0, tcap := 0 } = .error (.reservedOp 0x00#8) ∧
    decode { op := 0x07#8, w := 0, shift := 0, tcap := 0 } = .error (.reservedOp 0x07#8) ∧
    decode { op := 0xFF#8, w := 2, shift := -1, tcap := 0 } = .error (.reservedOp 0xFF#8) := by decide
/-- Port bits 1111_1110 on an 8-bit W port are −2, and 1000 on a 4-bit SHIFT port is −8 (R63). -/
theorem test_decode_ports :
    decode (PortCommand.toCommand (p := narrow)
      { op := 0b00000001#8, w := 0b11111110#8, shift := 0b1000#4, tcap := 0b111#3 }) = .ok (.shl (-2) (-8)) := by decide
theorem test_decodeTableWord :
    decodeTableWord 8 0x06 = some (.fmtb 0 0) ∧ decodeTableWord 8 0x00 = none := by decide

/-! ## The assembler (R67) and the canonical spelling (R60, the listing of 95_test_vectors.md P1) -/

theorem test_assemble_line :
    assemble ['f', 'm', 't', 'B', ' ', '4', ',', ' ', '0', 'x', '2', '1', ' ', ';', 'n', 'o', 't', 'e'] =
      .ok (some { op := 0x06#8, w := 4, shift := 0, tcap := 33 }) := by decide
theorem test_assemble_refusals :
    assemble ['N', 'O', 'P', ' ', '1'] = .error .unknownMnemonic ∧
    assemble ['S', 'H', 'L', ' ', '1'] = .error .wrongOperandCount ∧
    assemble ['I', 'N', 'C', ' ', '1', 'a'] = .error .badOperand := by decide
theorem test_spelling :
    spelling { op := 0x02#8, w := 4, shift := 8, tcap := 0 } =
      ['O', 'P', '=', '0', 'x', '0', '2', ' ', 'W', '=', '4', ' ', 'S', 'H', 'I', 'F', 'T', '=', '8', ' ',
       'T', 'C', 'A', 'P', '=', '-'] := by decide
/-- With WB = 8 a word is one byte (R44). -/
theorem test_hostBytes : hostBytes 8 0x5A = [0x5A#8] := by rfl

/-! ## SHL (95_test_vectors.md 2.1) -/

theorem test_shl_carries_across_every_word :
    completes (.shl 4 9) (small 8 4 [0xC0, 0xA8, 0x01, 0x4D]) [0x50, 0x02, 0x9A, 0x00] (ok 0 false) := by decide
theorem test_shl_leaves_words_past_w :
    completes (.shl 2 8) (small 8 3 [0x12, 0x34, 0x56]) [0x34, 0x00, 0x56] (ok 0 false) := by decide

/-! ## SHR (2.2) -/

theorem test_shr_carries_across_every_word :
    completes (.shr 4 20) (small 16 4 [0x0123, 0x4567, 0x89AB, 0xCDEF]) [0x0000, 0x0012, 0x3456, 0x789A] (ok 0 false) := by
  decide
theorem test_shr_odd_width : completes (.shr 2 2) (small 3 2 [5, 3]) [1, 2] (ok 0 false) := by decide

/-! ## INC (2.3) -/

theorem test_inc_carries_and_leaves_words_past_w :
    completes (.inc 2) (small 8 3 [0x12, 0xFF, 0xFF]) [0x13, 0x00, 0xFF] (ok 0 false) := by decide
theorem test_inc_wraps : completes (.inc 3) (small 1 3 [1, 1, 1]) [0, 0, 0] (ok 0 true) := by decide

/-! ## DEC (2.4) -/

theorem test_dec_borrows_across_three_words :
    completes (.dec 4) (small 16 4 [0x0001, 0, 0, 0]) [0x0000, 0xFFFF, 0xFFFF, 0xFFFF] (ok 0 false) := by decide
theorem test_dec_to_zero_is_no_wrap : completes (.dec 2) (small 8 2 [0x00, 0x01]) [0x00, 0x00] (ok 0 false) := by
  decide

/-! ## FMTS and FMTB (2.5) -/

theorem test_fmts_odd_width :
    emits (.fmts 2) (small 3 2 [5, 3]) [0x31#8, 0x30#8, 0x31#8, 0x30#8, 0x31#8, 0x31#8, 0x0A#8] (ok 6 false) := by decide
theorem test_fmts_most_significant_bit_first :
    emits (.fmts 1) (small 8 1 [0xA5])
      [0x31#8, 0x30#8, 0x31#8, 0x30#8, 0x30#8, 0x31#8, 0x30#8, 0x31#8, 0x0A#8] (ok 8 false) := by decide

/-- A buffer `5 3` of 3-bit words beside a text destination whose index 7 holds 0x55. -/
def withText : State :=
  { small 3 2 [5, 3] with stores := [(0, { oneBuffer 2 [5, 3] with txt := [(7, 0x55#8)] })] }

/-- The text of `5 3` (2.5) at TCAP > N + 1: terminated at index N, the tail unchanged (R124). -/
theorem test_fmtb_terminates_and_leaves_the_tail :
    writesText (.fmtb 2 8) withText
      [(0, 0x31#8), (1, 0x30#8), (2, 0x31#8), (3, 0x30#8), (4, 0x31#8), (5, 0x31#8), (6, 0x00#8), (7, 0x55#8)]
      (ok 6 false) := by decide
theorem test_fmtb_needs_room_for_the_terminator :
    writesText (.fmtb 2 6) withText [(7, 0x55#8)] (err .bufferTooSmall) := by decide

/-! ## Errors and the step -/

/-- Two errors; W is checked first (2.1, 2.5, R142). -/
theorem test_w_is_checked_first :
    completes (.shl 0 (-1)) (small 8 2 [0x12, 0x34]) [0x12, 0x34] (err .invalidLength) ∧
    completes (.shl 3 1) (small 8 2 [0x12, 0x34]) [0x12, 0x34] (err .invalidLength) ∧
    completes (.shr 2 (-8)) (small 8 2 [0x12, 0x34]) [0x12, 0x34] (err .invalidShiftAmount) := by decide

/-- The state after a step, if there is one. -/
def after (o : Host.Outcome State Fault Refusal) : Option State :=
  match o with
  | .next t => some t
  | .fault _ | .refused _ => none

/-- withFetchWord makes the very next step run the instruction: INC with W = 0 answers InvalidLength (R100). -/
theorem test_withFetchWord :
    (after (step (State.reset.withFetchWord 8 0x03))).bind (fun t => t.response) = some (err .invalidLength) := by decide
/-- A reserved OP answers InvalidCommand (2.6). -/
theorem test_reserved_op :
    (after (step (State.reset.withFetchWord 8 0x07))).bind (fun t => t.response) = some (err .invalidCommand) := by decide

/-! ## Witnesses -/

/-- Storage of two written words, `12 34`. -/
def two : State := small 8 2 [0x12, 0x34]

/-- The command `q` issued next on storage number 0 of `s`. -/
def issuing (s : State) (q : Issue) : State := { s with inputs := [.issue q] }

/-- A disciplined issue on storage number 0. -/
def plain (op : BitVec 8) (w shift tcap : Int) : Issue :=
  { store := 0, cmd := { op := op, w := w, shift := shift, tcap := tcap }, touched := [], resetDuring := false }

/-- A completion, found by evaluation. -/
theorem next_of {o : Host.Outcome State Fault Refusal} {e : Status}
    (h : ((after o).bind fun t => t.response.map fun r => r.status) = some e) :
    ∃ t, o = .next t ∧ t.hasStatus e := by
  cases o with
  | next t =>
    simp only [after, Option.bind_some, Option.map_eq_some_iff] at h
    obtain ⟨r, hr, he⟩ := h
    exact ⟨t, rfl, r, hr, he⟩
  | fault f => cases h
  | refused r => cases h

/-- Buf words `[lo, hi)` read as listed, found by evaluation. -/
theorem agrees_of {b : Buf} {ws : List Nat} {lo hi : Nat}
    (h : ∀ k, k < hi → lo ≤ k → (ws[k]?).isSome = true ∧ b.words.read k = ws[k]?) : b.Agrees ws lo hi := by
  intro k hk hk'
  obtain ⟨h1, h2⟩ := h k hk' hk
  obtain ⟨v, hv⟩ := Option.isSome_iff_exists.1 h1
  exact ⟨v, hv, h2.trans hv⟩

theorem two_inv : two.Inv := by
  simp only [State.Inv, Storage.wf]; decide

theorem witness_StepKeepsTheInvariant :
    (issuing two (plain 0x03 2 0 0)).Inv ∧ ∃ t, step (issuing two (plain 0x03 2 0 0)) = .next t ∧ t.hasStatus .ok :=
  ⟨by simp only [State.Inv, Storage.wf]; decide, next_of (by decide)⟩

theorem witness_StepPerformsTheIssuedCommand :
    (issuing two (plain 0x01 2 4 0)).inputs = .issue (plain 0x01 2 4 0) :: [] ∧ (plain 0x01 2 4 0).disciplined ∧
      decode (plain 0x01 2 4 0).cmd = .ok (.shl 2 4) := ⟨rfl, ⟨rfl, rfl⟩, rfl⟩

/-- A step that returns a response, and one that returns none. -/
theorem witness_IndexCountsTheResponses :
    (∃ t, step (issuing two (plain 0x03 2 0 0)) = .next t ∧ t.response.isSome) ∧
      ∃ t, step two = .next t ∧ t.response = none :=
  ⟨by obtain ⟨t, h, r, hr, _⟩ := next_of (o := step (issuing two (plain 0x03 2 0 0))) (e := .ok) (by decide)
      exact ⟨t, h, by rw [hr]; rfl⟩, two.advance [], rfl, rfl⟩

/-- The reserved OP values at the ends of their ranges. -/
theorem witness_OpcodeSelectsTheCommand :
    (0x00#8 = 0#8 ∨ 7 ≤ (0x00#8).toNat) ∧ (0x07#8 = 0#8 ∨ 7 ≤ (0x07#8).toNat) ∧
      (0xFF#8 = 0#8 ∨ 7 ≤ (0xFF#8).toNat) := by decide

/-- Two commands that differ only in operands their OP does not read: INC, and a reserved OP. -/
theorem witness_UnreadOperandsAreIgnored :
    (∃ c d : Command, c ≠ d ∧ c.op = d.op ∧ (1 ≤ c.op.toNat → c.op.toNat ≤ 6 → c.w = d.w) ∧
      (c.op = 1#8 ∨ c.op = 2#8 → c.shift = d.shift) ∧ (c.op = 6#8 → c.tcap = d.tcap)) ∧
    ∃ c d : Command, c.w ≠ d.w ∧ c.op = d.op ∧ (1 ≤ c.op.toNat → c.op.toNat ≤ 6 → c.w = d.w) ∧
      (c.op = 1#8 ∨ c.op = 2#8 → c.shift = d.shift) ∧ (c.op = 6#8 → c.tcap = d.tcap) :=
  ⟨⟨⟨3#8, 2, 0, 0⟩, ⟨3#8, 2, 1, 9⟩, by decide⟩, ⟨7#8, 2, 0, 0⟩, ⟨7#8, 3, 0, 0⟩, by decide⟩

/-- Both sides of the equivalence occur: test_wellFormed_edges and the refusals after it. -/
theorem witness_PortsCarryExactlyTheFittingInstructions :
    Instr.wellFormed narrow (.fmtb 127 3) = true ∧ Instr.wellFormed narrow (.fmtb 127 4) = false := by decide

theorem witness_ReservedOpIsRejected :
    (issuing two (plain 0x07 0 0 0)).inputs = .issue (plain 0x07 0 0 0) :: [] ∧
      (plain 0x07 0 0 0).resetDuring = false ∧ ((0x07#8) = 0#8 ∨ 7 ≤ (0x07#8).toNat) := ⟨rfl, rfl, by decide⟩

theorem witness_InvalidLengthChangesNothing :
    (Instr.w (.inc 0) ≤ 0 ∨ (two.storage.buf.cap : Int) < Instr.w (.inc 0)) ∧
      (Instr.w (.inc 3) ≤ 0 ∨ (two.storage.buf.cap : Int) < Instr.w (.inc 3)) := by decide

theorem two_validLength : validLength two 1 ∧ validLength two 2 ∧ ¬ validLength two 0 ∧ ¬ validLength two 3 := by
  simp only [validLength]; decide

theorem witness_NegativeShiftChangesNothing : validLength two 2 ∧ (-1 : Int) < 0 :=
  ⟨two_validLength.2.1, by decide⟩

/-- TCAP = N is too small; TCAP = N + 1 is not. -/
theorem witness_TooSmallTextChangesNothing :
    validLength two 2 ∧ (16 : Int) < 2 * two.wb + 1 ∧ ¬ (17 : Int) < 2 * two.wb + 1 :=
  ⟨two_validLength.2.1, by decide⟩

theorem witness_ErrorsWriteNothing :
    (plain 0x01 2 (-1) 0).disciplined ∧ two.wb = (small 8 2 []).wb ∧
      two.storage.buf.cap = (small 8 2 []).storage.buf.cap ∧
      ∃ t, transact (plain 0x01 2 (-1) 0) two = .next t ∧ t.hasStatus .invalidShiftAmount :=
  ⟨⟨rfl, rfl⟩, rfl, rfl, next_of (by decide)⟩

/-- Each outcome of the check order. -/
theorem witness_CheckOrderFixesTheStatus :
    (plain 0x06 2 0 17).disciplined ∧ firstError two (plain 0xFF 0 (-1) 0).cmd = some .invalidCommand ∧
    firstError two (plain 0x06 3 0 0).cmd = some .invalidLength ∧
    firstError two (plain 0x02 2 (-1) 0).cmd = some .invalidShiftAmount ∧
    firstError two (plain 0x06 2 0 16).cmd = some .bufferTooSmall ∧
    firstError two (plain 0x06 2 0 17).cmd = none ∧ ∃ t, exec (.fmtb 2 17) two = .next t ∧ t.hasStatus .ok :=
  ⟨⟨rfl, rfl⟩, by decide, by decide, by decide, by decide, by decide, next_of (by decide)⟩

/-- An error, a success with COUNT = N, and WRAP = 1 from each command that can set it. -/
theorem witness_ResponseFieldsFollowTheCommand :
    (∃ t, exec (.inc 0) two = .next t ∧ t.hasStatus .invalidLength) ∧
    (∃ t, exec (.fmts 2) two = .next t ∧ t.hasStatus .ok) ∧
    completes (.inc 1) (small 8 1 [0xFF]) [0] (ok 0 true) ∧ completes (.dec 1) (small 8 1 [0]) [0xFF] (ok 0 true) :=
  ⟨next_of (by decide), next_of (by decide), by decide, by decide⟩

theorem two_agrees : two.storage.buf.Agrees [0x12, 0x34] 0 2 := agrees_of (by decide)

theorem two_fits : WordsFit two.wb [0x12, 0x34] := by unfold WordsFit; decide

/-- SHIFT = 4 on `12 34`, and SHIFT = N on a buffer of which no word was written. -/
theorem witness_ShlShiftsTheValueLeft :
    (two.Inv ∧ validLength two 2 ∧ [0x12, 0x34].length = 2 ∧ WordsFit two.wb [0x12, 0x34] ∧
      two.storage.buf.Agrees [0x12, 0x34] (4 / two.wb) 2) ∧
    (small 8 2 []).storage.buf.Agrees [0, 0] (16 / (small 8 2 []).wb) 2 :=
  ⟨⟨two_inv, two_validLength.2.1, rfl, two_fits, two_agrees⟩, agrees_of (by decide)⟩

theorem witness_ShrShiftsTheValueRight :
    (two.Inv ∧ validLength two 2 ∧ [0x12, 0x34].length = 2 ∧ WordsFit two.wb [0x12, 0x34] ∧
      two.storage.buf.Agrees [0x12, 0x34] 0 (2 - 4 / two.wb)) ∧
    (small 8 2 []).storage.buf.Agrees [0, 0] 0 (2 - 16 / (small 8 2 []).wb) :=
  ⟨⟨two_inv, two_validLength.2.1, rfl, two_fits, two_agrees⟩, agrees_of (by decide)⟩

theorem witness_ShiftByZeroChangesNoStorage : validLength two 2 := two_validLength.2.1

theorem two_holds : HoldsValue two 2 0x1234 := agrees_of (by decide)

/-- The value 0x1234 with N = 16: a value below `2^N`, and shifts on both sides of N. -/
theorem witness_ShiftLawsHold :
    two.Inv ∧ validLength two 2 ∧ 0x1234 < 2 ^ (2 * two.wb) ∧ HoldsValue two 2 0x1234 ∧
      15 < 2 * two.wb ∧ 2 * two.wb ≤ 16 := ⟨two_inv, two_validLength.2.1, by decide, two_holds, by decide, by decide⟩

/-- shift1 = 1 of two words, and shift1 = 2, which reads no word. -/
theorem witness_WholeWordPassesMoveWords :
    2 ≤ two.storage.buf.cap ∧ (∀ k, k < 2 → 1 ≤ k → (two.storage.buf.words.read k).isSome) ∧
      ∀ k, k < 2 → k + 1 < 2 → (two.storage.buf.words.read k).isSome := by decide

/-- shift2 at both ends of its range. -/
theorem witness_SubWordPassesWalkInTheFixedOrder :
    (1 ≤ 1 ∧ 1 < 8) ∧ (1 ≤ 7 ∧ 7 < 8) ∧ 0 < 2 ∧ 2 ≤ two.storage.buf.cap ∧
      ∀ k, k < 2 → (two.storage.buf.words.read k).isSome := by decide

theorem witness_IncAddsOneModuloTheWidth :
    two.Inv ∧ validLength two 2 ∧ [0x12, 0x34].length = 2 ∧ WordsFit two.wb [0x12, 0x34] ∧
      two.storage.buf.Agrees [0x12, 0x34] 0 2 := ⟨two_inv, two_validLength.2.1, rfl, two_fits, two_agrees⟩

theorem witness_DecSubtractsOneModuloTheWidth :
    two.Inv ∧ validLength two 2 ∧ [0x12, 0x34].length = 2 ∧ WordsFit two.wb [0x12, 0x34] ∧
      two.storage.buf.Agrees [0x12, 0x34] 0 2 := ⟨two_inv, two_validLength.2.1, rfl, two_fits, two_agrees⟩

/-- `12 FF`: word 0 absorbs the carry. -/
theorem witness_IncStopsAtTheWordThatAbsorbs :
    validLength (small 8 2 [0x12, 0xFF]) 2 ∧ (small 8 2 [0x12, 0xFF]).storage.buf.words.read 0 = some 0x12 ∧
      0x12 ≠ typeMax (small 8 2 [0x12, 0xFF]).wb ∧
      ∀ k, k < 2 → 0 < k → (small 8 2 [0x12, 0xFF]).storage.buf.words.read k = some (typeMax 8) := by
  simp only [validLength]; decide

/-- `12 00`: word 0 absorbs the borrow. -/
theorem witness_DecStopsAtTheWordThatAbsorbs :
    validLength (small 8 2 [0x12, 0x00]) 2 ∧ (small 8 2 [0x12, 0x00]).storage.buf.words.read 0 = some 0x12 ∧
      0x12 ≠ 0 ∧ ∀ k, k < 2 → 0 < k → (small 8 2 [0x12, 0x00]).storage.buf.words.read k = some 0 := by
  simp only [validLength]; decide

/-- An ordinary value, and the two boundary values, all_ones_W and all_zero_W. -/
theorem witness_IncDecLawsHold :
    (two.Inv ∧ validLength two 2 ∧ 0x1234 < 2 ^ (2 * two.wb) ∧ HoldsValue two 2 0x1234) ∧
    HoldsValue (small 8 2 [0xFF, 0xFF]) 2 (2 ^ (2 * 8) - 1) ∧ HoldsValue (small 8 2 [0, 0]) 2 0 :=
  ⟨⟨two_inv, two_validLength.2.1, by decide, two_holds⟩, agrees_of (by decide), agrees_of (by decide)⟩

theorem witness_FmtsStreamsTheBitString :
    validLength two 2 ∧ [0x12, 0x34].length = 2 ∧ two.storage.buf.Agrees [0x12, 0x34] 0 2 :=
  ⟨two_validLength.2.1, rfl, two_agrees⟩

/-- TCAP = N + 1 exactly. -/
theorem witness_FmtbWritesTheTerminatedBitString :
    validLength two 2 ∧ 2 * two.wb + 1 ≤ 17 ∧ [0x12, 0x34].length = 2 ∧
      (∀ p ∈ two.storage.shared, ¬ (p.1 < 17 ∧ p.2 < 2)) ∧ two.storage.buf.Agrees [0x12, 0x34] 0 2 :=
  ⟨two_validLength.2.1, by decide, rfl, by decide, two_agrees⟩

theorem witness_BothPresentationsGiveTheSameCharacters :
    two.wb = two.wb ∧ two.storage.buf = two.storage.buf ∧ [0x12, 0x34].length = (2 : Int).toNat ∧
      two.storage.buf.Agrees [0x12, 0x34] 0 (2 : Int).toNat ∧ (∃ t, exec (.fmts 2) two = .next t ∧ t.hasStatus .ok) ∧
      (∃ t, exec (.fmtb 2 17) two = .next t ∧ t.hasStatus .ok) ∧ 15 < (2 : Int).toNat * two.wb :=
  ⟨rfl, rfl, rfl, two_agrees, next_of (by decide), next_of (by decide), by decide⟩

theorem witness_BitStringReadsBackAsTheValue : 1 ≤ two.wb ∧ WordsFit two.wb [0x12, 0x34] :=
  ⟨by decide, two_fits⟩

/-- Positions at both ends. -/
theorem witness_PositionNamesOneBitOfTheValue :
    1 ≤ two.wb ∧ WordsFit two.wb [0x12, 0x34] ∧ 0 < [0x12, 0x34].length * two.wb ∧ 15 < [0x12, 0x34].length * two.wb :=
  ⟨by decide, two_fits, by decide, by decide⟩

theorem witness_ValueAndWordsUndoEachOther : WordsFit two.wb [0x12, 0x34] ∧ 2 ^ 16 - 1 < 2 ^ (2 * two.wb) :=
  ⟨two_fits, by decide⟩

/-- Every command completes with OK on `12 34`; CommandReachesOnlyItsWindow's hypothesis for each. -/
theorem witness_CommandReachesOnlyItsWindow :
    (∃ t, exec (.shl 1 3) two = .next t ∧ t.hasStatus .ok) ∧ (∃ t, exec (.shr 1 3) two = .next t ∧ t.hasStatus .ok) ∧
    (∃ t, exec (.inc 1) two = .next t ∧ t.hasStatus .ok) ∧ (∃ t, exec (.dec 1) two = .next t ∧ t.hasStatus .ok) ∧
    (∃ t, exec (.fmts 1) two = .next t ∧ t.hasStatus .ok) ∧ ∃ t, exec (.fmtb 1 9) two = .next t ∧ t.hasStatus .ok :=
  ⟨next_of (by decide), next_of (by decide), next_of (by decide), next_of (by decide), next_of (by decide),
    next_of (by decide)⟩

/-- Two states that differ in the response, the index and another caller's storage. -/
theorem witness_ResultDependsOnlyOnOperandsAndStorage :
    (∃ s' : State, s' ≠ two ∧ two.params = s'.params ∧ two.storage = s'.storage) ∧
      ∃ t, exec (.shl 2 3) two = .next t ∧ t.hasStatus .ok :=
  ⟨⟨{ two with index := 5, response := some (err .invalidLength), stores := two.stores ++ [(1, oneBuffer 1 [7])] },
    by decide, rfl, rfl⟩, next_of (by decide)⟩

/-- `12 56` beside a text destination and a sink that are not empty. -/
def other : State :=
  { two with stores := [(0, { oneBuffer 2 [0x12, 0x56] with txt := [(3, 0x55#8)], sink := [0x41#8] })] }

/-- `12 34` and `12 56` agree on the words `[0, 1)` and differ past them, in Txt and in the sink; a command that
writes Buf, FMTS, and FMTB at TCAP = N + 1, each of W = 1. -/
theorem witness_CommandReadsOnlyItsWindow :
    (two.wb = other.wb ∧ two.storage.buf.cap = other.storage.buf.cap ∧ two.storage.shared = other.storage.shared ∧
      ∀ i : Instr, i.w = 1 → ∀ k : Nat, (k : Int) < i.w →
        two.storage.buf.words.read k = other.storage.buf.words.read k) ∧
    (∃ t, exec (.inc 1) two = .next t ∧ t.hasStatus .ok) ∧ (∃ t, exec (.fmts 1) two = .next t ∧ t.hasStatus .ok) ∧
    (∃ t, exec (.fmtb 1 9) two = .next t ∧ t.hasStatus .ok) ∧
    two.storage.buf ≠ other.storage.buf ∧ two.storage.txt ≠ other.storage.txt ∧
    two.storage.sink ≠ other.storage.sink := by
  refine ⟨⟨rfl, rfl, rfl, fun i hi k hk => ?_⟩, next_of (by decide), next_of (by decide), next_of (by decide),
    by decide, by decide, by decide⟩
  have : k = 0 := by rw [hi] at hk; omega
  subst this; rfl

/-- Storages 0 and 1. -/
def pair : State := { two with stores := [(0, oneBuffer 2 [0x12, 0x34]), (1, oneBuffer 1 [7])] }

theorem witness_CommandsOnDistinctStorageCommute :
    (0 : Nat) ≠ 1 ∧ (∃ t, execOn 0 (.shl 2 3) pair = .next t ∧ t.hasStatus .ok) ∧
      ∃ t, execOn 1 (.inc 1) pair = .next t ∧ t.hasStatus .ok :=
  ⟨by decide, next_of (by decide), next_of (by decide)⟩

/-- `__ FF` with word 0 unwritten: every clause's hypotheses at word 0; and `__ 00` for DEC. -/
def gap (x : Nat) : State := { two with stores := [(0, { oneBuffer 2 [] with buf := { cap := 2, words := [(1, x)] } })] }

theorem witness_ReadOfAnUnwrittenWordFaults :
    validLength (gap 0xFF) 2 ∧ (gap 0xFF).storage.buf.words.read 0 = none ∧
    (0 < 7 ∧ 1 ≤ (gap 0xFF).wb ∧ 7 / (gap 0xFF).wb ≤ 0) ∧ (0 < 15 ∧ 0 + 15 / (gap 0xFF).wb < 2) ∧
    (∀ j, j < 2 → 0 < j → (gap 0xFF).storage.buf.words.read j = some (typeMax (gap 0xFF).wb)) ∧
    (∀ j, j < 2 → 0 < j → (gap 0).storage.buf.words.read j = some 0) ∧
    2 * (gap 0xFF).wb + 1 ≤ 17 ∧ ∀ p ∈ (gap 0xFF).storage.shared, ¬ (p.1 < 17 ∧ p.2 < 2) := by
  simp only [validLength]; decide

/-- Txt index 16 shares storage with Buf word 1. -/
def overlapping : State := { two with stores := [(0, { oneBuffer 2 [0x12, 0x34] with shared := [(16, 1)] })] }

/-- FMTB of both words reaches the overlap at TCAP = 17; FMTB of word 0 alone does not. -/
theorem witness_OverlappingTextIsRefused :
    (validLength overlapping 2 ∧ (2 : Int) * overlapping.wb + 1 ≤ 17 ∧
      ∃ p ∈ overlapping.storage.shared, (p.1 : Int) < 17 ∧ (p.2 : Int) < 2) ∧
    ∃ t, exec (.fmtb 1 17) overlapping = .next t ∧ t.hasStatus .ok :=
  ⟨by simp only [validLength]; decide, next_of (by decide)⟩

/-- Each of the three outcomes of EveryOtherCommandCompletes occurs. -/
theorem witness_EveryOtherCommandCompletes :
    (∃ t, exec (.fmts 2) two = .next t) ∧ exec (.fmts 2) (gap 0xFF) = .fault .unwrittenWord ∧
      exec (.fmtb 2 17) overlapping = .refused .txtOverlapsBuf :=
  ⟨by obtain ⟨t, h, _⟩ := next_of (o := exec (.fmts 2) two) (e := .ok) (by decide)
      exact ⟨t, h⟩, rfl, rfl⟩

/-- The last word and character a command uses, and the sink. -/
theorem witness_AccessToUsedStorageRaces :
    (issuing two { plain 0x06 2 0 17 with touched := [(0, .word 1), (0, .char 16)] }).inputs =
      .issue { plain 0x06 2 0 17 with touched := [(0, .word 1), (0, .char 16)] } :: [] ∧
    decode (plain 0x06 2 0 17).cmd = .ok (.fmtb 2 17) ∧ decode (plain 0x05 2 0 0).cmd = .ok (.fmts 2) ∧
    ((1 : Nat) : Int) < Instr.w (.fmtb 2 17) ∧ ((16 : Nat) : Int) < 17 := ⟨rfl, rfl, rfl, by decide, by decide⟩

/-- An access to another storage, and one to the first word past W. -/
theorem witness_AccessElsewhereDoesNotRace :
    ∀ a ∈ [(1, Location.word 0), (0, Location.word 1)],
      a.1 ≠ (plain 0x03 1 0 0).store ∨
        ∃ k : Nat, a.2 = .word k ∧ (plain 0x03 1 0 0).cmd.w ≤ (k : Int) ∧ ∀ p ∈ (two.storageAt 0).shared, p.2 ≠ k := by
  intro a ha
  rcases List.mem_cons.1 ha with rfl | ha
  · exact .inl (by decide)
  · rcases List.mem_cons.1 ha with rfl | ha
    · exact .inr ⟨1, rfl, by decide, by decide⟩
    · cases ha

theorem witness_IdleResetHasNoEffect : State.inputs { two with inputs := [.reset] } = .reset :: [] := rfl

/-- The command `q` with reset arriving while it runs. -/
def interrupted (q : Issue) : Issue := { q with resetDuring := true }

/-- A command of each kind that would have succeeded, interrupted. -/
theorem witness_ResetAbandonsTheCommand :
    (issuing two (interrupted (plain 0x01 2 3 0))).inputs = .issue (interrupted (plain 0x01 2 3 0)) :: [] ∧
    (interrupted (plain 0x01 2 3 0)).touched = [] ∧ (interrupted (plain 0x01 2 3 0)).resetDuring = true ∧
    (decode (interrupted (plain 0x01 2 3 0)).cmd = .ok (.shl 2 3) ∧
      ∃ u, exec (.shl 2 3) { two with inputs := [], response := none, active := 0 } = .next u ∧ u.hasStatus .ok) ∧
    (decode (interrupted (plain 0x05 2 0 0)).cmd = .ok (.fmts 2) ∧
      ∃ u, exec (.fmts 2) { two with inputs := [], response := none, active := 0 } = .next u ∧ u.hasStatus .ok) ∧
    decode (interrupted (plain 0x06 2 0 17)).cmd = .ok (.fmtb 2 17) ∧
      ∃ u, exec (.fmtb 2 17) { two with inputs := [], response := none, active := 0 } = .next u ∧ u.hasStatus .ok :=
  ⟨rfl, rfl, rfl, ⟨rfl, next_of (by decide)⟩, ⟨rfl, next_of (by decide)⟩, rfl, next_of (by decide)⟩

/-- A negative shift, and a reserved OP, with reset arriving. -/
theorem witness_ResetDuringAnErrorChangesNothing :
    (∃ u, transact (plain 0x01 2 (-1) 0) { two with inputs := [], response := none, active := 0 } = .next u ∧
      u.hasStatus .invalidShiftAmount) ∧
    ∃ u, transact (plain 0x07 2 0 0) { two with inputs := [], response := none, active := 0 } = .next u ∧
      u.hasStatus .invalidCommand := ⟨next_of (by decide), next_of (by decide)⟩

/-- The last word at the largest value, a character, the smallest buffer; and the first word past CAP, the first value
above TYPE_MAX and a buffer of no words. -/
theorem witness_CallerWritesItsOwnStorage :
    (State.inputs { two with inputs := [.writeWord 0 1 0xFF] } = .writeWord 0 1 0xFF :: [] ∧
      1 < (two.storageAt 0).buf.cap ∧ 0xFF ≤ typeMax two.wb) ∧
    State.inputs { two with inputs := [.writeChar 0 3 0x55#8] } = .writeChar 0 3 0x55#8 :: [] ∧
    (State.inputs { two with inputs := [.provide 0 1 []] } = .provide 0 1 [] :: [] ∧ 1 ≤ 1) ∧
    (two.storageAt 0).buf.cap ≤ 2 ∧ typeMax two.wb < 0x100 ∧
    State.inputs { two with inputs := [.provide 0 0 []] } = .provide 0 0 [] :: [] := by
  refine ⟨⟨rfl, by decide, by decide⟩, rfl, ⟨rfl, by decide⟩, by decide, by decide, rfl⟩

end Sys2Proof.Tests
end

section
/-!
The value of a sequence of words and `fromval` in the spec's own form (R11): the weighted sum and the formula for
word k. Settles O32.
-/

namespace Sys2Proof.Machine

/-- The sum of R11: `Σ_{k=0}^{W−1} Buf[k] * 2^(WB*(W−1−k))`. -/
theorem val_eq_sum (wb : Nat) (ws : List Nat) :
    val wb ws = ((List.range ws.length).map fun k => ws.getD k 0 * 2 ^ (wb * (ws.length - 1 - k))).sum := by
  induction ws with
  | nil => rfl
  | cons x ws ih =>
    rw [val_cons, ih, List.length_cons, List.range_succ_eq_map, List.map_cons, List.sum_cons, List.map_map]
    simp [Function.comp_def, Nat.sub_sub, Nat.add_comm 1]

theorem getElem?_fromval {wb v w k : Nat} (hk : k < w) :
    (fromval wb v w)[k]? = some ((v >>> (wb * (w - 1 - k))) &&& typeMax wb) := by
  simp [fromval, hk]

theorem val_fromval_of_lt {wb v w : Nat} (hv : v < 2 ^ (w * wb)) : val wb (fromval wb v w) = v := by
  rw [val_fromval, Nat.mul_comm, Nat.mod_eq_of_lt hv]

/-- Settles O32: the sum by induction on the words; the words of a value by the definition of `fromval`; the two
undo each other because words that fit are determined by their value. -/
theorem valueAndWordsUndoEachOther : Obligations.ValueAndWordsUndoEachOther := by
  intro wb ws v w hfit
  have hlt : val wb ws < 2 ^ (ws.length * wb) := Nat.mul_comm wb _ ▸ val_lt hfit
  exact ⟨val_eq_sum wb ws, hlt, fun _ hk => getElem?_fromval hk, fromval_val hfit,
    fun hv => ⟨val_fromval_of_lt hv, fromval_fit wb v w⟩⟩

end Sys2Proof.Machine
end

section
/-!
What a command that completes has done, said once for all six: it raised an error, which depends on its operands,
WB and CAP alone (R140, R142), or it was valid and acted on the storage it names alone (R21, R50). `exec_next_iff`
ties both relations to exec.
-/

namespace Sys2Proof.Machine

/-- The command has this error, on a buffer of `cap` words of `wb` bits (R142, items 2 and 3). -/
inductive Raises (wb cap : Nat) : Instr → Status → Prop
  | length {i : Instr} (hl : badLength cap i.w = true) : Raises wb cap i .invalidLength
  | shl {w shift : Int} (hl : badLength cap w = false) (hs : badShift shift = true) :
      Raises wb cap (.shl w shift) .invalidShiftAmount
  | shr {w shift : Int} (hl : badLength cap w = false) (hs : badShift shift = true) :
      Raises wb cap (.shr w shift) .invalidShiftAmount
  | fmtb {w tcap : Int} (hl : badLength cap w = false) (ht : badTcap wb w tcap = true) :
      Raises wb cap (.fmtb w tcap) .bufferTooSmall

/-- The command is valid on words of `wb` bits and the storage `st`, and completes with the storage and the response
named last (R83, R86, R100, R102, R122, R124). -/
inductive Performs (wb : Nat) (st : Storage) : Instr → Storage → Response → Prop
  | shl {w shift : Int} {b : Buf} (hl : badLength st.buf.cap w = false) (hs : badShift shift = false)
      (h : shiftLeft wb w.toNat shift.toNat st.buf = .ok b) :
      Performs wb st (.shl w shift) { st with buf := b } (.success 0 false)
  | shr {w shift : Int} {b : Buf} (hl : badLength st.buf.cap w = false) (hs : badShift shift = false)
      (h : shiftRight wb w.toNat shift.toNat st.buf = .ok b) :
      Performs wb st (.shr w shift) { st with buf := b } (.success 0 false)
  | inc {w : Int} {b : Buf} {o : Bool} (hl : badLength st.buf.cap w = false)
      (h : carryScan wb w.toNat st.buf = .ok (b, o)) :
      Performs wb st (.inc w) { st with buf := b } (.success 0 o)
  | dec {w : Int} {b : Buf} {o : Bool} (hl : badLength st.buf.cap w = false)
      (h : borrowScan wb w.toNat st.buf = .ok (b, o)) :
      Performs wb st (.dec w) { st with buf := b } (.success 0 o)
  | fmts {w : Int} {ws : List Nat} (hl : badLength st.buf.cap w = false)
      (h : st.buf.readRun w.toNat 0 w.toNat = .ok ws) :
      Performs wb st (.fmts w) { st with sink := st.sink ++ streamText wb ws }
        (.success (bitWidth wb w.toNat) false)
  | fmtb {w tcap : Int} {ws : List Nat} {x : List Host.Cell} (hl : badLength st.buf.cap w = false)
      (ht : badTcap wb w tcap = false) (ho : st.overlaps w.toNat tcap.toNat = false)
      (h : st.buf.readRun w.toNat 0 w.toNat = .ok ws)
      (hx : writeTxtRun tcap.toNat st.txt 0 (bufferText wb ws) = .ok x) :
      Performs wb st (.fmtb w tcap) { st with txt := x } (.success (bitWidth wb w.toNat) false)

theorem Raises.ne_ok {wb cap : Nat} {i : Instr} {e : Status} (h : Raises wb cap i e) : e ≠ .ok := by
  cases h <;> decide

theorem Performs.status_ok {wb : Nat} {st st' : Storage} {i : Instr} {r : Response} (h : Performs wb st i st' r) :
    r.status = .ok := by
  cases h <;> rfl

/-- A valid command has a word count of 1 to CAP (R142 item 2). -/
theorem Performs.length_ok {wb : Nat} {st st' : Storage} {i : Instr} {r : Response} (h : Performs wb st i st' r) :
    badLength st.buf.cap i.w = false := by
  cases h <;> assumption

theorem Performs.toNat_w_le {wb : Nat} {st st' : Storage} {i : Instr} {r : Response} (h : Performs wb st i st' r) :
    i.w.toNat ≤ st.buf.cap :=
  Int.toNat_le.2 (badLength_eq_false.1 h.length_ok).2

/-- An error is the command's whole effect (R140, R144). -/
theorem exec_of_raises {i : Instr} {s : State} {e : Status} (h : Raises s.wb s.storage.buf.cap i e) :
    exec i s = .next (s.raise e) := by
  cases h with
  | length hl => exact exec_badLength hl
  | shl hl hs => simp [exec, execShl, hl, hs]
  | shr hl hs => simp [exec, execShr, hl, hs]
  | fmtb hl ht => simp [exec, execFmtb, hl, ht]

theorem exec_of_performs {i : Instr} {s : State} {st : Storage} {r : Response}
    (h : Performs s.wb s.storage i st r) : exec i s = .next ((s.setStorage st).respond r) := by
  cases h with
  | shl hl hs h => rw [execShl_valid hl hs, h]; rfl
  | shr hl hs h => rw [execShr_valid hl hs, h]; rfl
  | inc hl h => rw [execInc_valid hl, h]; rfl
  | dec hl h => rw [execDec_valid hl, h]; rfl
  | fmts hl h => simp [exec, execFmts, hl, h, State.sinkPut]
  | fmtb hl ht ho h hx => simp [exec, execFmtb, hl, ht, ho, h, hx, State.setTxt]

/-- A command that completes raised its error and did nothing else, or performed its operation on the storage it
names; and each command that has an error or can perform its operation completes so. -/
theorem exec_next_iff {i : Instr} {s t : State} :
    exec i s = .next t ↔
      (∃ e, Raises s.wb s.storage.buf.cap i e ∧ t = s.raise e) ∨
      ∃ st r, Performs s.wb s.storage i st r ∧ t = (s.setStorage st).respond r := by
  constructor
  · intro h
    cases i with
    | shl w shift =>
      rcases execShl_next h with ⟨hl, rfl⟩ | ⟨hl, hs, rfl⟩ | ⟨hl, hs, b, hb, rfl⟩
      · exact .inl ⟨_, .length hl, rfl⟩
      · exact .inl ⟨_, .shl hl hs, rfl⟩
      · exact .inr ⟨_, _, .shl hl hs hb, rfl⟩
    | shr w shift =>
      rcases execShr_next h with ⟨hl, rfl⟩ | ⟨hl, hs, rfl⟩ | ⟨hl, hs, b, hb, rfl⟩
      · exact .inl ⟨_, .length hl, rfl⟩
      · exact .inl ⟨_, .shr hl hs, rfl⟩
      · exact .inr ⟨_, _, .shr hl hs hb, rfl⟩
    | inc w =>
      rcases execInc_next h with ⟨hl, rfl⟩ | ⟨hl, b, o, hb, rfl⟩
      · exact .inl ⟨_, .length hl, rfl⟩
      · exact .inr ⟨_, _, .inc hl hb, rfl⟩
    | dec w =>
      rcases execDec_next h with ⟨hl, rfl⟩ | ⟨hl, b, o, hb, rfl⟩
      · exact .inl ⟨_, .length hl, rfl⟩
      · exact .inr ⟨_, _, .dec hl hb, rfl⟩
    | fmts w =>
      rcases execFmts_next h with ⟨hl, rfl⟩ | ⟨hl, ws, hws, rfl⟩
      · exact .inl ⟨_, .length hl, rfl⟩
      · exact .inr ⟨_, _, .fmts hl hws, rfl⟩
    | fmtb w tcap =>
      rcases execFmtb_next h with ⟨hl, rfl⟩ | ⟨hl, ht, rfl⟩ | ⟨hl, ht, ho, ws, x, hws, hx, rfl⟩
      · exact .inl ⟨_, .length hl, rfl⟩
      · exact .inl ⟨_, .fmtb hl ht, rfl⟩
      · exact .inr ⟨_, _, .fmtb hl ht ho hws hx, rfl⟩
  · rintro (⟨e, he, rfl⟩ | ⟨st, r, hp, rfl⟩)
    · exact exec_of_raises he
    · exact exec_of_performs hp

/-- Every command that completes answers (R30). -/
theorem exec_next_answered {i : Instr} {s t : State} (h : exec i s = .next t) : ∃ r, Answered s t r := by
  rcases exec_next_iff.1 h with ⟨e, -, rfl⟩ | ⟨st, r, -, rfl⟩
  · exact ⟨_, rfl, rfl⟩
  · exact ⟨_, rfl, rfl⟩

/-- A command that completes with OK performed its operation. -/
theorem exec_succeeded {i : Instr} {s t : State} (h : exec i s = .next t) (ht : t.succeeded = true) :
    ∃ st r, Performs s.wb s.storage i st r ∧ t = (s.setStorage st).respond r := by
  rcases exec_next_iff.1 h with ⟨e, he, rfl⟩ | hp
  · simp [State.succeeded, he.ne_ok] at ht
  · exact hp

end Sys2Proof.Machine
end

section
/-!
What each input of the host, and so each step, can have done. Settles O1, O2 and O4.
-/

namespace Sys2Proof.Machine

/-! ## What a step can do -/

/-- A transaction that completes: a reserved OP is rejected, any other command that does not race is performed, and
of either, interrupted by reset, is left what R170 says. -/
theorem transact_next {q : Issue} {s t : State} (h : transact q s = .next t) :
    ((∃ d, decode q.cmd = .error d) ∧ t = if q.resetDuring then s else s.reject) ∨
    ∃ i, decode q.cmd = .ok i ∧ s.raced i q.touched = false ∧ ∃ u, exec i s = .next u ∧
      t = if q.resetDuring then (if u.succeeded then unspecified i s u else s) else u := by
  unfold transact at h
  cases hd : decode q.cmd with
  | error d =>
    simp only [hd, Host.Outcome.next.injEq] at h
    exact .inl ⟨⟨d, rfl⟩, h.symm⟩
  | ok i =>
    cases hr : s.raced i q.touched with
    | true => simp [hd, hr] at h
    | false =>
      refine .inr ⟨i, rfl, hr, ?_⟩
      cases hq : q.resetDuring with
      | false =>
        simp only [hd, hr, hq, Bool.false_eq_true, if_false] at h
        exact ⟨t, h, rfl⟩
      | true =>
        simp only [hd, hr, hq, abandon, Bool.false_eq_true, if_false, if_true] at h
        cases he : exec i s with
        | next u =>
          simp only [he, Host.Outcome.next.injEq] at h
          exact ⟨u, rfl, h.symm⟩
        | fault f => simp [he] at h
        | refused r => simp [he] at h

theorem provideBuf_next {k cap : Nat} {shared : List (Nat × Nat)} {s t : State}
    (h : provideBuf k cap shared s = .next t) :
    1 ≤ cap ∧ t = s.setStorageAt k
      { s.storageAt k with buf := { cap := cap, words := [] }, shared := shared } := by
  unfold provideBuf at h
  split at h
  · cases h
  · next h0 => cases h; exact ⟨Nat.pos_of_ne_zero h0, rfl⟩

theorem hostWriteWord_next {k i v : Nat} {s t : State} (h : hostWriteWord k i v s = .next t) :
    i < (s.storageAt k).buf.cap ∧ v ≤ typeMax s.wb ∧ t = s.setStorageAt k { s.storageAt k with
      buf := { (s.storageAt k).buf with words := (s.storageAt k).buf.words.write i v } } := by
  unfold hostWriteWord at h
  split at h
  · next hi => cases h; exact ⟨hi.1, hi.2, rfl⟩
  · cases h

theorem step_next {s t : State} (h : step s = .next t) :
    (s.inputs = [] ∧ t = s.advance []) ∨
    ∃ inp rest, s.inputs = inp :: rest ∧ takeInput inp (s.advance rest) = .next t := by
  unfold step at h
  cases hin : s.inputs with
  | nil => rw [hin] at h; cases h; exact .inl ⟨rfl, rfl⟩
  | cons inp rest => rw [hin] at h; exact .inr ⟨inp, rest, rfl, h⟩

/-! ## The invariant (O1, O2) -/

/-- Settles O1: WB = 8 and no storage is listed. -/
theorem resetStateMeetsTheInvariant : Obligations.ResetStateMeetsTheInvariant := by
  refine ⟨⟨by decide, List.Pairwise.nil, fun e he => ?_⟩, rfl, rfl⟩
  cases he

theorem Storage.wf.good {wb : Nat} {st : Storage} (h : st.wf wb) : st.buf.Good wb := ⟨h.1, h.2.1, h.2.2.1⟩

theorem Storage.wf.txt_wf {wb : Nat} {st : Storage} (h : st.wf wb) : Memory.wf st.txt := h.2.2.2

theorem Storage.wf_iff {wb : Nat} {st : Storage} : st.wf wb ↔ st.buf.Good wb ∧ Memory.wf st.txt :=
  ⟨fun h => ⟨h.good, h.txt_wf⟩, fun ⟨hb, hx⟩ => ⟨hb.1, hb.2.1, hb.2.2, hx⟩⟩

/-- A command that succeeds leaves the storage it names as R26 and R27 have it. -/
theorem Performs.wf {wb : Nat} {st st' : Storage} {i : Instr} {r : Response} (h : Performs wb st i st' r)
    (hst : st.wf wb) : st'.wf wb := by
  obtain ⟨hb, hx⟩ := Storage.wf_iff.1 hst
  rw [Storage.wf_iff]
  cases h with
  | shl _ _ h => exact ⟨shiftLeft_good hb h, hx⟩
  | shr _ _ h => exact ⟨shiftRight_good hb h, hx⟩
  | inc _ h => exact ⟨carryScan_good hb h, hx⟩
  | dec _ h => exact ⟨borrowScan_good hb h, hx⟩
  | fmts _ _ => exact ⟨hb, hx⟩
  | fmtb _ _ _ _ h => exact ⟨hb, writeTxtRun_wf hx h⟩

theorem respond_inv {s : State} (h : s.Inv) (r : Response) : (s.respond r).Inv := h

theorem advance_inv {s : State} (h : s.Inv) (rest : List Input) : (s.advance rest).Inv := h

theorem withActive_inv {s : State} (h : s.Inv) (k : Nat) : State.Inv { s with active := k } := h

theorem withDraws_inv {s : State} (h : s.Inv) (n : Nat) : State.Inv { s with draws := n } := h

theorem exec_inv {i : Instr} {s t : State} (hs : s.Inv) (h : exec i s = .next t) : t.Inv := by
  rcases exec_next_iff.1 h with ⟨e, -, rfl⟩ | ⟨st, r, hp, rfl⟩
  · exact respond_inv hs _
  · exact respond_inv (setStorageAt_inv hs _ (hp.wf (storageAt_wf hs _))) _

/-- The unspecified values of R170 are words of the buffer's type at indices below CAP, and characters. -/
theorem unspecified_inv {i : Instr} {s : State} (hs : s.Inv) (hw : i.w.toNat ≤ s.storage.buf.cap) (u : State) :
    (unspecified i s u).Inv := by
  have words : (s.drawWords i.w.toNat).Inv := withDraws_inv (setBuf_inv hs (fill_good hs hw _)) _
  cases i with
  | shl w shift => exact words
  | shr w shift => exact words
  | inc w => exact words
  | dec w => exact words
  | fmts w => exact withDraws_inv (setSink_inv hs _) _
  | fmtb w tcap => exact withDraws_inv (setTxt_inv hs (Memory.wf_fill _ (storageAt_wf hs s.active).txt_wf _)) _

theorem transact_inv {q : Issue} {s t : State} (hs : s.Inv) (h : transact q s = .next t) : t.Inv := by
  rcases transact_next h with ⟨-, rfl⟩ | ⟨i, -, -, u, hu, rfl⟩
  · split
    · exact hs
    · exact respond_inv hs _
  · split
    · split
      · next hok =>
        obtain ⟨st, r, hp, -⟩ := exec_succeeded hu hok
        exact unspecified_inv hs hp.toNat_w_le u
      · exact hs
    · exact exec_inv hs hu

theorem takeInput_inv {inp : Input} {s t : State} (hs : s.Inv) (h : takeInput inp s = .next t) : t.Inv := by
  cases inp with
  | issue q => exact transact_inv (withActive_inv hs q.store) h
  | reset => cases h; exact hs
  | provide k cap shared =>
    obtain ⟨hcap, rfl⟩ := provideBuf_next h
    refine setStorageAt_inv hs k (Storage.wf_iff.2 ⟨⟨hcap, List.Pairwise.nil, fun c hc => ?_⟩, ?_⟩)
    · cases hc
    · exact (storageAt_wf hs k).txt_wf
  | writeWord k i v =>
    obtain ⟨hi, hv, rfl⟩ := hostWriteWord_next h
    exact setStorageAt_inv hs k (Storage.wf_iff.2
      ⟨(storageAt_wf hs k).good.put hi hv, (storageAt_wf hs k).txt_wf⟩)
  | writeChar k j c =>
    cases h
    exact setStorageAt_inv hs k (Storage.wf_iff.2
      ⟨(storageAt_wf hs k).good, Memory.wf_write (storageAt_wf hs k).txt_wf j c⟩)

/-- Settles O2: the operations that an input calls each keep the invariant. -/
theorem stepKeepsTheInvariant : Obligations.StepKeepsTheInvariant := by
  intro s t hs h
  rcases step_next h with ⟨-, rfl⟩ | ⟨inp, rest, -, h⟩
  · exact advance_inv hs []
  · exact takeInput_inv (advance_inv hs rest) h

/-! ## The command index (O4) -/

/-- The index of `t` is that of `s`, and one more if `t` holds a response that was returned since `s`. -/
def CountsResponse (s t : State) : Prop := t.index = s.index + (if t.response.isSome then 1 else 0)

theorem countsResponse_of_none {s t : State} (hr : t.response = none) (hi : t.index = s.index) :
    CountsResponse s t := by
  simp [CountsResponse, hr, hi]

theorem countsResponse_of_answered {s t : State} {r : Response} (h : Answered s t r) : CountsResponse s t := by
  simp [CountsResponse, h.1, h.2]

theorem unspecified_response (i : Instr) (s u : State) : (unspecified i s u).response = s.response := by
  cases i <;> rfl

theorem unspecified_index (i : Instr) (s u : State) : (unspecified i s u).index = s.index := by
  cases i <;> rfl

theorem transact_countsResponse {q : Issue} {s t : State} (hs : s.response = none) (h : transact q s = .next t) :
    CountsResponse s t := by
  rcases transact_next h with ⟨-, rfl⟩ | ⟨i, -, -, u, hu, rfl⟩
  · split
    · exact countsResponse_of_none hs rfl
    · exact countsResponse_of_answered ⟨rfl, rfl⟩
  · split
    · split
      · exact countsResponse_of_none ((unspecified_response i s u).trans hs) (unspecified_index i s u)
      · exact countsResponse_of_none hs rfl
    · exact countsResponse_of_answered (exec_next_answered hu).choose_spec

theorem takeInput_countsResponse {inp : Input} {s t : State} (hs : s.response = none)
    (h : takeInput inp s = .next t) : CountsResponse s t := by
  cases inp with
  | issue q => exact transact_countsResponse (s := { s with active := q.store }) hs h
  | reset => cases h; exact countsResponse_of_none hs rfl
  | provide k cap shared => obtain ⟨-, rfl⟩ := provideBuf_next h; exact countsResponse_of_none hs rfl
  | writeWord k i v => obtain ⟨-, -, rfl⟩ := hostWriteWord_next h; exact countsResponse_of_none hs rfl
  | writeChar k j c => cases h; exact countsResponse_of_none hs rfl

/-- Settles O4: no response is pending when an input is taken, and only a command that completes returns one. -/
theorem indexCountsTheResponses : Obligations.IndexCountsTheResponses := by
  refine ⟨rfl, fun s t h => ?_⟩
  rcases step_next h with ⟨-, rfl⟩ | ⟨inp, rest, -, h⟩
  · exact countsResponse_of_none (s := s) rfl rfl
  · exact takeInput_countsResponse (s := s.advance rest) rfl h

end Sys2Proof.Machine
end

section
/-!
The response of a command, and what it may depend on. Settles O15, O34 and O35.
-/

namespace Sys2Proof.Machine

/-! ## The response (O15) -/

theorem Status.code_toNat_le (e : Status) : e.code.toNat ≤ 4 := by cases e <;> decide

theorem Status.code_eq_zero_iff (e : Status) : e.code = 0#3 ↔ e = .ok := by cases e <;> decide

/-- A scan that ends says that no word absorbed it exactly where every word was at the boundary. -/
theorem propagate_true_iff {w n boundary wrapped : Nat} {absorb : Nat → Nat} {b b' : Buf} {o : Bool}
    (h : Buf.propagate w boundary wrapped absorb n b = .ok (b', o)) :
    o = true ↔ ∀ k, k < n → b.words.read k = some boundary := by
  rcases (propagate_spec h).2 with ⟨rfl, j, x, hj, hx, hne, -, -⟩ | ⟨rfl, hall, -⟩
  · refine iff_of_false Bool.false_ne_true fun hall => hne ?_
    exact Option.some.inj (hx.symm.trans (hall j hj))
  · exact iff_of_true rfl hall

theorem forall_lt_toNat_iff {w : Int} {p : Nat → Prop} :
    (∀ k, k < w.toNat → p k) ↔ ∀ k : Nat, (k : Int) < w → p k := by
  simp only [Int.lt_toNat]

/-- Settles O15: an error's response is `Response.failure`; a success's is read off each command's operation, and
WRAP off the scan. -/
theorem responseFieldsFollowTheCommand : Obligations.ResponseFieldsFollowTheCommand := by
  intro i s t h
  rcases exec_next_iff.1 h with ⟨e, he, rfl⟩ | ⟨st, r, hp, rfl⟩
  · exact ⟨_, ⟨rfl, rfl⟩, Status.code_toNat_le _, Status.code_eq_zero_iff _, fun _ => ⟨rfl, rfl⟩,
      fun hok => absurd hok he.ne_ok, fun hok => absurd hok he.ne_ok⟩
  · refine ⟨r, ⟨rfl, rfl⟩, Status.code_toNat_le _, Status.code_eq_zero_iff _, fun hne => absurd hp.status_ok hne,
      fun _ => ?_, fun _ => ?_⟩
    · cases hp <;> rfl
    · cases hp with
      | inc _ hscan => exact (propagate_true_iff hscan).trans forall_lt_toNat_iff
      | dec _ hscan => exact (propagate_true_iff hscan).trans forall_lt_toNat_iff
      | shl | shr | fmts | fmtb => exact iff_of_false Bool.false_ne_true not_false

/-! ## Operands, parameters and the storage named (O34) -/

/-- Settles O34: both cases of a command that completes are stated by WB and the storage in hand alone. -/
theorem resultDependsOnlyOnOperandsAndStorage : Obligations.ResultDependsOnlyOnOperandsAndStorage := by
  intro i s s' t hparams hstore h
  have hwb : s.wb = s'.wb := congrArg Params.wordBits hparams
  rcases exec_next_iff.1 h with ⟨e, he, rfl⟩ | ⟨st, r, hp, rfl⟩
  · rw [hwb, hstore] at he
    exact ⟨_, exec_of_raises he, rfl, hstore.symm⟩
  · rw [hwb, hstore] at hp
    exact ⟨_, exec_of_performs hp, rfl, by simp⟩

/-! ## The words a command reads (O35) -/

/-- From the storages `st` and `st'` the command has left `st1` and `st1'` alike: it wrote the same text to `[0, N]`
of both if it is FMTB (R124), and no text otherwise (R50). -/
def SameText (wb : Nat) (i : Instr) (st st1 st' st1' : Storage) : Prop :=
  match i with
  | .fmtb w _ => ∀ j : Nat, (j : Int) ≤ w * wb →
      ∃ c, Memory.read st1.txt j = some c ∧ Memory.read st1'.txt j = some c
  | .shl _ _ | .shr _ _ | .inc _ | .dec _ | .fmts _ => st1.txt = st.txt ∧ st1'.txt = st'.txt

/-- The command handed both sinks the same characters (R49). -/
def SameSinkOutput (st st1 st' st1' : Storage) : Prop :=
  ∃ cs, st1.sink = st.sink ++ cs ∧ st1'.sink = st'.sink ++ cs

theorem SameSinkOutput.of_eq {st st1 st' st1' : Storage} (h : st1.sink = st.sink) (h' : st1'.sink = st'.sink) :
    SameSinkOutput st st1 st' st1' :=
  ⟨[], by simp [h], by simp [h']⟩

theorem Buf.SameWindow.readAll {b b' : Buf} {w : Nat} (h : Buf.SameWindow w b b') :
    b.readRun w 0 w = b'.readRun w 0 w :=
  readRun_congr (by omega) (by have := h.2.1; omega) h.1 h.2.2

theorem Storage.overlaps_congr {st st' : Storage} (h : st.shared = st'.shared) (w tcap : Nat) :
    st.overlaps w tcap = st'.overlaps w tcap := by
  simp only [Storage.overlaps, h]

theorem length_bufferText (wb : Nat) (ws : List Nat) : (bufferText wb ws).length = ws.length * wb + 1 := by
  simp [bufferText]

/-- What a text destination of FMTB holds after it does not depend on what it held. -/
theorem writeTxtRun_sameText {tcap : Nat} {x y x1 : List Host.Cell} {cs : List Char8}
    (h : writeTxtRun tcap x 0 cs = .ok x1) (hlen : cs.length ≤ tcap) :
    ∃ y1, writeTxtRun tcap y 0 cs = .ok y1 ∧
      ∀ j, j < cs.length → ∃ c, Memory.read x1 j = some c ∧ Memory.read y1 j = some c := by
  obtain ⟨y1, hy⟩ := writeTxtRun_of_lt (x := y) (j := 0) (cs := cs) (tcap := tcap) (by omega)
  refine ⟨y1, hy, fun j hj => ⟨cs[j], ?_, ?_⟩⟩
  · simp [writeTxtRun_spec h, hj]
  · simp [writeTxtRun_spec hy, hj]

/-- A command that can perform its operation on one storage can on every storage with the same words in `[0, W)` and
the same overlap, and does there the same. -/
theorem Performs.sameWindow {wb : Nat} {st st' st1 : Storage} {i : Instr} {r : Response}
    (h : Performs wb st i st1 r) (hwin : Buf.SameWindow i.w.toNat st.buf st'.buf)
    (hshared : st.shared = st'.shared) :
    ∃ st1', Performs wb st' i st1' r ∧ Buf.SameWindow i.w.toNat st1.buf st1'.buf ∧
      SameSinkOutput st st1 st' st1' ∧ SameText wb i st st1 st' st1' := by
  have hl := h.length_ok
  rw [hwin.1] at hl
  cases h with
  | shl _ hs h =>
    obtain ⟨b, hb, hw⟩ := shiftLeft_congr hwin h
    exact ⟨_, .shl hl hs hb, hw, .of_eq rfl rfl, rfl, rfl⟩
  | shr _ hs h =>
    obtain ⟨b, hb, hw⟩ := shiftRight_congr hwin h
    exact ⟨_, .shr hl hs hb, hw, .of_eq rfl rfl, rfl, rfl⟩
  | inc _ h =>
    obtain ⟨b, hb, hw⟩ := propagate_congr hwin (Nat.le_refl _) h
    exact ⟨_, .inc hl hb, hw, .of_eq rfl rfl, rfl, rfl⟩
  | dec _ h =>
    obtain ⟨b, hb, hw⟩ := propagate_congr hwin (Nat.le_refl _) h
    exact ⟨_, .dec hl hb, hw, .of_eq rfl rfl, rfl, rfl⟩
  | fmts _ h => exact ⟨_, .fmts hl (hwin.readAll ▸ h), hwin, ⟨_, rfl, rfl⟩, rfl, rfl⟩
  | @fmtb w tcap ws x _ ht ho h hx =>
    have hpos : 0 < w := (badLength_eq_false.1 hl).1
    have hcap := badTcap_eq_false.1 ht
    have hlen : (bufferText wb ws).length = w.toNat * wb + 1 := by
      rw [length_bufferText, (Buf.readRun_ok h).1]
    have hN : ((w.toNat * wb : Nat) : Int) = w * wb := by
      rw [Nat.cast_mul, Int.toNat_of_nonneg (Int.le_of_lt hpos)]
    obtain ⟨x', hx', hsame⟩ := writeTxtRun_sameText (y := st'.txt) hx (by omega)
    refine ⟨_, .fmtb hl ht (Storage.overlaps_congr hshared _ _ ▸ ho) (hwin.readAll ▸ h) hx', hwin,
      .of_eq rfl rfl, fun j hj => hsame j (by omega)⟩

/-- Settles O35: an error reads no storage, and a success only the words of its window. -/
theorem commandReadsOnlyItsWindow : Obligations.CommandReadsOnlyItsWindow := by
  intro i s s' t hwb hcap hshared hwords h
  rcases exec_next_iff.1 h with ⟨e, he, rfl⟩ | ⟨st, r, hp, rfl⟩
  · rw [hwb, hcap] at he
    refine ⟨_, exec_of_raises he, rfl, fun k hk => (hwords k hk).symm, SameSinkOutput.of_eq rfl rfl, ?_⟩
    cases i with
    | fmtb w tcap => rintro ⟨r, hr, hok⟩; cases hr; exact absurd hok he.ne_ok
    | shl | shr | inc | dec | fmts => exact ⟨rfl, rfl⟩
  · have hwin : Buf.SameWindow i.w.toNat s.storage.buf s'.storage.buf :=
      ⟨hcap, hp.toNat_w_le, forall_lt_toNat_iff.2 hwords⟩
    obtain ⟨st', hp', hwin', hsink, htext⟩ := hp.sameWindow hwin hshared
    rw [hwb] at hp'
    refine ⟨_, exec_of_performs hp', rfl, ?_⟩
    simp only [respond_storage, storage_setStorage]
    refine ⟨fun k hk => (hwin'.2.2 k (Int.lt_toNat.2 hk)).symm, hsink, ?_⟩
    cases i with
    | fmtb w tcap => exact fun _ => htext
    | shl | shr | inc | dec | fmts => exact htext

end Sys2Proof.Machine
end

section
/-!
The position mapping: position p of the whole buffer is one bit of one word, and one bit of the value (R42).
Settles O31.
-/

namespace Sys2Proof.Machine

/-- The position mapping itself (R42): word `p div WB` exists, and its bit `WB − 1 − (p mod WB)` is the bit of `p`. -/
theorem bitAt_eq_testBit_word {wb : Nat} {ws : List Nat} {p : Nat} (hp : p < ws.length * wb) :
    ∃ x, ws[p / wb]? = some x ∧ bitAt wb ws p = x.testBit (wb - 1 - p % wb) := by
  have hk : p / wb < ws.length := Nat.div_lt_of_lt_mul (Nat.mul_comm _ wb ▸ hp)
  exact ⟨ws[p / wb], List.getElem?_eq_getElem hk, by simp [bitAt, hk]⟩

/-- Settles O31: R42's first line is the definition of `bitAt`; its second is the digit argument of `bitAt_eq_testBit`. -/
theorem positionNamesOneBitOfTheValue : Obligations.PositionNamesOneBitOfTheValue := by
  intro wb ws p hwb hfit hp
  obtain ⟨x, hx, hbit⟩ := bitAt_eq_testBit_word hp
  exact ⟨x, hx, hbit, bitAt_eq_testBit hwb hfit hp⟩

end Sys2Proof.Machine
end

section
/-!
What a command that completes leaves alone (R26 to R28, R50), and so that commands on distinct storage do not interact
(R52, R155). Settles O33 and O36.
-/

namespace Sys2Proof.Machine

/-! ## Within the storage the command names (O33) -/

/-- From `st` to `st1` the text and the sink changed at most as the command may change them, and FMTS and FMTB left Buf
as it was (R50): only FMTB writes Txt, at most `[0, N]`, and only FMTS hands characters to the sink (R49). -/
def KeepsPresentation (wb : Nat) (i : Instr) (st st1 : Storage) : Prop :=
  match i with
  | .shl _ _ | .shr _ _ | .inc _ | .dec _ => st1.txt = st.txt ∧ st1.sink = st.sink
  | .fmts _ => st1.buf = st.buf ∧ st1.txt = st.txt ∧ ∃ cs, st1.sink = st.sink ++ cs
  | .fmtb w _ => st1.buf = st.buf ∧ st1.sink = st.sink ∧
    ∀ j : Nat, w * wb < j → Memory.read st1.txt j = Memory.read st.txt j

theorem KeepsPresentation.refl (wb : Nat) (i : Instr) (st : Storage) : KeepsPresentation wb i st st := by
  cases i with
  | shl | shr | inc | dec => exact ⟨rfl, rfl⟩
  | fmts => exact ⟨rfl, rfl, [], (List.append_nil _).symm⟩
  | fmtb => exact ⟨rfl, rfl, fun _ _ => rfl⟩

theorem writeTxtRun_frame {tcap : Nat} {x x1 : List Host.Cell} {cs : List Char8} {j : Nat}
    (h : writeTxtRun tcap x 0 cs = .ok x1) (hj : cs.length ≤ j) : Memory.read x1 j = Memory.read x j := by
  rw [writeTxtRun_spec h, if_neg (by omega)]

/-- What FMTB writes, by its operand: N + 1 characters (R124). -/
theorem length_bufferText_of_readRun {wb : Nat} {b : Buf} {w : Int} {ws : List Nat} (hw : 0 < w)
    (h : b.readRun w.toNat 0 w.toNat = .ok ws) : ((bufferText wb ws).length : Int) = w * wb + 1 := by
  rw [length_bufferText, (Buf.readRun_ok h).1, Nat.cast_add, Nat.cast_mul, Int.toNat_of_nonneg (Int.le_of_lt hw),
    Nat.cast_one]

theorem Performs.keepsPresentation {wb : Nat} {st st1 : Storage} {i : Instr} {r : Response}
    (h : Performs wb st i st1 r) : KeepsPresentation wb i st st1 := by
  cases h with
  | shl | shr | inc | dec => exact ⟨rfl, rfl⟩
  | fmts => exact ⟨rfl, rfl, _, rfl⟩
  | fmtb hl _ _ h hx =>
    have hlen := length_bufferText_of_readRun (wb := wb) (badLength_eq_false.1 hl).1 h
    exact ⟨rfl, rfl, fun j hj => writeTxtRun_frame hx (by omega)⟩

/-- No operation changes CAP or a Buf word from W on (R26, R50). -/
theorem Performs.buf_frame {wb : Nat} {st st1 : Storage} {i : Instr} {r : Response}
    (h : Performs wb st i st1 r) :
    st1.buf.cap = st.buf.cap ∧ ∀ k, i.w.toNat ≤ k → st1.buf.words.read k = st.buf.words.read k := by
  cases h with
  | shl _ _ h => exact shiftLeft_frame h
  | shr _ _ h => exact shiftRight_frame h
  | inc _ h => exact propagate_frame h
  | dec _ h => exact propagate_frame h
  | fmts | fmtb => exact ⟨rfl, fun _ _ => rfl⟩

theorem Performs.shared_eq {wb : Nat} {st st1 : Storage} {i : Instr} {r : Response}
    (h : Performs wb st i st1 r) : st1.shared = st.shared := by
  cases h <;> rfl

/-! ## Outside it -/

theorem exec_sameOutside {i : Instr} {s t : State} (h : exec i s = .next t) : SameOutside s t := by
  rcases exec_next_iff.1 h with ⟨e, -, rfl⟩ | ⟨st, r, -, rfl⟩
  · exact ⟨rfl, rfl, rfl, rfl, fun _ _ => rfl⟩
  · exact sameOutside_setStorage s st r

/-- Settles O33: an error changes no storage, and an operation changes the storage in hand only within its window. -/
theorem commandReachesOnlyItsWindow : Obligations.CommandReachesOnlyItsWindow := by
  intro i s t h
  refine ⟨exec_sameOutside h, ?_⟩
  rcases exec_next_iff.1 h with ⟨e, -, rfl⟩ | ⟨st, r, hp, rfl⟩
  · refine ⟨rfl, rfl, fun _ _ => rfl, ?_⟩
    have hkeep := KeepsPresentation.refl s.wb i s.storage
    cases i <;> exact hkeep
  · obtain ⟨hcap, hwords⟩ := hp.buf_frame
    have hkeep := hp.keepsPresentation
    simp only [respond_storage, storage_setStorage]
    refine ⟨hcap, hp.shared_eq, fun k hk => hwords k (Int.toNat_le.2 hk), ?_⟩
    cases i <;> exact hkeep

/-! ## Commands on two storages (O36) -/

/-- A command on storage `k` keeps the parameters and every other storage, and counts one response. -/
theorem execOn_frame {k : Nat} {i : Instr} {s t : State} (h : execOn k i s = .next t) :
    t.params = s.params ∧ t.index = s.index + 1 ∧ ∀ j, j ≠ k → t.storageAt j = s.storageAt j := by
  obtain ⟨hparams, -, -, -, hothers⟩ := exec_sameOutside h
  obtain ⟨r, -, hindex⟩ := exec_next_answered h
  exact ⟨hparams, hindex, hothers⟩

/-- A command on storage `k` answers alike on every state with the same parameters and the same storage `k` (R21). -/
theorem execOn_congr {k : Nat} {i : Instr} {s s' t : State} (hparams : s.params = s'.params)
    (hstore : s.storageAt k = s'.storageAt k) (h : execOn k i s = .next t) :
    ∃ t', execOn k i s' = .next t' ∧ t'.response = t.response ∧ t'.storageAt k = t.storageAt k := by
  obtain ⟨t', h', hresp, hst⟩ := resultDependsOnlyOnOperandsAndStorage i { s with active := k }
    { s' with active := k } t hparams hstore h
  obtain ⟨-, -, hactive, -, -⟩ := exec_sameOutside h
  obtain ⟨-, -, hactive', -, -⟩ := exec_sameOutside h'
  simp only [State.storage, hactive, hactive'] at hst
  exact ⟨t', h', hresp, hst⟩

/-- A command on storage `k` done after one on another storage does what it does without it, and leaves that other
command's storage as it found it. -/
theorem execOn_after {k m : Nat} {i j : Instr} {s t u : State} (hkm : k ≠ m) (hk : execOn k i s = .next t)
    (hm : execOn m j s = .next u) :
    ∃ v, execOn k i u = .next v ∧ v.response = t.response ∧ v.index = s.index + 2 ∧
      v.storageAt k = t.storageAt k ∧ ∀ n, n ≠ k → v.storageAt n = u.storageAt n := by
  obtain ⟨hparams, hindex, hothers⟩ := execOn_frame hm
  obtain ⟨v, hv, hresp, hstore⟩ := execOn_congr hparams.symm (hothers k hkm).symm hk
  obtain ⟨-, hindex', hothers'⟩ := execOn_frame hv
  exact ⟨v, hv, hresp, by omega, hstore, hothers'⟩

/-- Settles O36: each command does after the other what it does alone, and neither reaches the other's storage. -/
theorem commandsOnDistinctStorageCommute : Obligations.CommandsOnDistinctStorageCommute := by
  intro a b i j s ta tb hab ha hb
  obtain ⟨tab, htab, hrb, hiab, hatb, hab'⟩ := execOn_after hab.symm hb ha
  obtain ⟨tba, htba, hra, hiba, hata, hba'⟩ := execOn_after hab ha hb
  obtain ⟨-, -, hta⟩ := execOn_frame ha
  obtain ⟨-, -, htb⟩ := execOn_frame hb
  refine ⟨tab, tba, htab, htba, hrb, hra, hiab.trans hiba.symm, fun k => ?_⟩
  by_cases hka : k = a
  · subst hka; rw [hab' k hab, hata]
  · by_cases hkb : k = b
    · subst hkb; rw [hatb, hba' k hka]
    · rw [hab' k hkb, hta k hka, hba' k hka, htb k hkb]

end Sys2Proof.Machine
end

section
/-!
When FMTB is refused (R58). Settles O39.
-/

namespace Sys2Proof.Machine

theorem Storage.overlaps_iff {st : Storage} {w tcap : Nat} :
    st.overlaps w tcap = true ↔ ∃ p ∈ st.shared, p.1 < tcap ∧ p.2 < w := by
  simp [Storage.overlaps]

/-- FMTB gives a refusal at one place only: both checks passed, and then the overlap was found. -/
theorem execFmtb_refused_iff {w tcap : Int} {s : State} :
    exec (.fmtb w tcap) s = .refused .txtOverlapsBuf ↔
      badLength s.storage.buf.cap w = false ∧ badTcap s.wb w tcap = false ∧
        s.storage.overlaps w.toNat tcap.toNat = true := by
  change execFmtb w tcap s = _ ↔ _
  unfold execFmtb
  cases badLength s.storage.buf.cap w with
  | true => simp
  | false =>
    cases badTcap s.wb w tcap with
    | true => simp
    | false =>
      cases s.storage.overlaps w.toNat tcap.toNat with
      | true => simp
      | false =>
        refine iff_of_false ?_ (by simp)
        simp only [Bool.false_eq_true, if_false]
        split
        · simp
        · split <;> simp

/-- Settles O39: the three conditions of `execFmtb_refused_iff`, each in R58's and R142's terms. -/
theorem overlappingTextIsRefused : Obligations.OverlappingTextIsRefused := by
  intro s w tcap
  rw [execFmtb_refused_iff, badLength_eq_false, badTcap_eq_false, Storage.overlaps_iff]
  simp only [validLength, Int.lt_toNat]

end Sys2Proof.Machine
end

section
/-!
An issued command: what the step does with it, and when an access of another agent does not race (R52, R61, R155,
R173). Settles O3 and O41.
-/

namespace Sys2Proof.Machine

theorem step_issue {s : State} {q : Issue} {rest : List Input} (h : s.inputs = .issue q :: rest) :
    step s = transact q { s with inputs := rest, response := none, active := q.store } := by
  simp only [step, h, takeInput, State.advance]

/-! ## A command under the issue discipline (O3) -/

theorem raced_nil (s : State) (i : Instr) : s.raced i [] = false := rfl

theorem transact_of_disciplined {q : Issue} {s : State} {i : Instr} (hq : q.disciplined)
    (hd : decode q.cmd = .ok i) : transact q s = exec i s := by
  obtain ⟨htouched, hreset⟩ := hq
  simp [transact, hd, htouched, hreset, raced_nil]

/-- Settles O3: with nothing touched there is no race, and without reset the transaction is exec. -/
theorem stepPerformsTheIssuedCommand : Obligations.StepPerformsTheIssuedCommand := by
  intro s q rest i hin hq hd
  rw [step_issue hin, transact_of_disciplined hq hd]

/-! ## Accesses that do not race (O41) -/

/-- The accesses reach the transaction by the race check alone. -/
theorem transact_of_no_race {q : Issue} {s : State}
    (h : ∀ i, decode q.cmd = .ok i → s.raced i q.touched = false) :
    transact q s = transact { q with touched := [] } s := by
  cases hd : decode q.cmd with
  | error d => simp [transact, hd]
  | ok i => simp [transact, hd, h i hd, raced_nil]

/-- A Buf word at or past W that shares no storage with Txt is none of what the command uses (R173). -/
theorem usedBy_word_eq_false {st : Storage} {i : Instr} {k : Nat} (hk : i.w ≤ k)
    (hshared : ∀ p ∈ st.shared, p.2 ≠ k) : st.usedBy i (.word k) = false := by
  simp only [Storage.usedBy, usesWord, Bool.or_eq_false_iff, decide_eq_false_iff_not, Int.not_lt,
    List.any_eq_false, Bool.and_eq_true, decide_eq_true_eq]
  exact ⟨hk, fun p hp hused => hshared p hp hused.1⟩

/-- Accesses to other storage, and to locations the command does not use, are no race (R52, R155, R173). -/
theorem raced_eq_false {s : State} {i : Instr} {touched : List (Nat × Location)}
    (h : ∀ a ∈ touched, a.1 ≠ s.active ∨ s.storage.usedBy i a.2 = false) : s.raced i touched = false := by
  simp only [State.raced, List.any_eq_false, Bool.and_eq_true, decide_eq_true_eq]
  rintro a ha ⟨hactive, hused⟩
  rcases h a ha with hne | hfree
  · exact hne hactive
  · exact Bool.false_ne_true (hfree.symm.trans hused)

/-- Settles O41: none of the accesses is to what the command uses, so the race check passes with and without them. -/
theorem accessElsewhereDoesNotRace : Obligations.AccessElsewhereDoesNotRace := by
  intro s q rest hin htouched
  rw [step_issue hin, step_issue (q := { q with touched := [] }) (rest := rest) rfl]
  refine transact_of_no_race fun i hd => raced_eq_false fun a ha => (htouched a ha).imp id ?_
  rintro ⟨k, hk, hw, hshared⟩
  rw [hk]
  exact usedBy_word_eq_false (decode_w hd ▸ hw) hshared

end Sys2Proof.Machine
end

section
/-!
Encoding: what each OP decodes to, ports, the assembler's line, and the reserved OP values (R60 to R64, R67).
Settles O5, O6, O7, O8 and O9.
-/

namespace Sys2Proof.Machine

/-! ## The opcode and the operands it reads (O5, O6) -/

section opcode
variable {c : Command}
theorem decode_shl (h : c.op = 1#8) : decode c = .ok (.shl c.w c.shift) := by simp [decode, h]
theorem decode_shr (h : c.op = 2#8) : decode c = .ok (.shr c.w c.shift) := by simp [decode, h]
theorem decode_inc (h : c.op = 3#8) : decode c = .ok (.inc c.w) := by simp [decode, h]
theorem decode_dec (h : c.op = 4#8) : decode c = .ok (.dec c.w) := by simp [decode, h]
theorem decode_fmts (h : c.op = 5#8) : decode c = .ok (.fmts c.w) := by simp [decode, h]
theorem decode_fmtb (h : c.op = 6#8) : decode c = .ok (.fmtb c.w c.tcap) := by simp [decode, h]
end opcode

/-- Settles O5: the decoder's answer for each OP, none of which asks anything of the operands. -/
theorem opcodeSelectsTheCommand : Obligations.OpcodeSelectsTheCommand := fun _ _ _ =>
  ⟨decode_shl rfl, decode_shr rfl, decode_inc rfl, decode_dec rfl, decode_fmts rfl, decode_fmtb rfl,
    fun _ hop => decode_reserved hop⟩

/-- Settles O6: in each case of the decoder the second command has the same OP, so it falls in the same case, and the
operands the answer names are the ones assumed equal. -/
theorem unreadOperandsAreIgnored : Obligations.UnreadOperandsAreIgnored := by
  intro c d hop hw hshift htcap
  have hwEq (h1 : 1 ≤ d.op.toNat) (h6 : d.op.toNat ≤ 6) : c.w = d.w := hw (hop ▸ h1) (hop ▸ h6)
  rw [hop] at hshift htcap
  rcases decode_cases c with ⟨h, hc⟩ | ⟨h, hc⟩ | ⟨h, hc⟩ | ⟨h, hc⟩ | ⟨h, hc⟩ | ⟨h, hc⟩ | ⟨h, hc⟩ <;>
    rw [hop] at h
  · rw [hc, decode_reserved h, hop]
  · rw [hc, decode_shl h, hwEq (by simp [h]) (by simp [h]), hshift (.inl h)]
  · rw [hc, decode_shr h, hwEq (by simp [h]) (by simp [h]), hshift (.inr h)]
  · rw [hc, decode_inc h, hwEq (by simp [h]) (by simp [h])]
  · rw [hc, decode_dec h, hwEq (by simp [h]) (by simp [h])]
  · rw [hc, decode_fmts h, hwEq (by simp [h]) (by simp [h])]
  · rw [hc, decode_fmtb h, hwEq (by simp [h]) (by simp [h]), htcap h]

/-! ## Ports (O7) -/

/-- The instruction whose operands are those of `i` after each went through its port: driven as low bits, read back
by sign extension (R63). -/
def throughPorts (p : Ports) : Instr → Instr
  | .shl w shift => .shl (BitVec.ofInt p.wBits w).toInt (BitVec.ofInt p.shiftBits shift).toInt
  | .shr w shift => .shr (BitVec.ofInt p.wBits w).toInt (BitVec.ofInt p.shiftBits shift).toInt
  | .inc w => .inc (BitVec.ofInt p.wBits w).toInt
  | .dec w => .dec (BitVec.ofInt p.wBits w).toInt
  | .fmts w => .fmts (BitVec.ofInt p.wBits w).toInt
  | .fmtb w tcap => .fmtb (BitVec.ofInt p.wBits w).toInt (BitVec.ofInt p.tcapBits tcap).toInt

/-- OP crosses the ports whole, so decoding answers the same operation whatever becomes of the operands. -/
theorem decode_encode_toPorts (p : Ports) (i : Instr) :
    decode ((encode i).toPorts p).toCommand = .ok (throughPorts p i) := by
  cases i <;> rfl

theorem throughPorts_eq_self_iff (p : Ports) (i : Instr) :
    throughPorts p i = i ↔ i.wellFormed p = true := by
  cases i <;> simp only [throughPorts, Instr.wellFormed, Bool.and_eq_true, fitsPort_iff, Instr.shl.injEq,
    Instr.shr.injEq, Instr.inc.injEq, Instr.dec.injEq, Instr.fmts.injEq, Instr.fmtb.injEq]

/-- Settles O7: each operand comes back as itself exactly when it is a value of its port. -/
theorem portsCarryExactlyTheFittingInstructions : Obligations.PortsCarryExactlyTheFittingInstructions := by
  intro p i
  rw [decode_encode_toPorts, Except.ok.injEq, throughPorts_eq_self_iff]

/-! ## The assembler's line (O8) -/

/-- The operands an instruction reads, in R67's order. -/
def operandsOf : Instr → List Int
  | .shl w shift => [w, shift]
  | .shr w shift => [w, shift]
  | .inc w => [w]
  | .dec w => [w]
  | .fmts w => [w]
  | .fmtb w tcap => [w, tcap]

theorem operandField_renderOperands (i : Instr) : operandField (' ' :: renderOperands i) = some (operandsOf i) := by
  cases i with
  | shl w shift => exact operandField_two w shift
  | shr w shift => exact operandField_two w shift
  | inc w => exact operandField_one w
  | dec w => exact operandField_one w
  | fmts w => exact operandField_one w
  | fmtb w tcap => exact operandField_two w tcap

theorem instrOf_mnemonicOf (i : Instr) : instrOf ((mnemonicOf i).map capital) (operandsOf i) = .ok i := by
  cases i <;> rfl

theorem mnemonicOf_plain (i : Instr) : mnemonicOf i ≠ [] ∧ ∀ c ∈ mnemonicOf i, isBlank c = false ∧ c ≠ ';' := by
  cases i <;> simp [mnemonicOf, isBlank]

/-- A line of operands ends in a decimal, and what stands before it starts no comment. -/
theorem renderOperands_eq_append (i : Instr) :
    ∃ l v, renderOperands i = l ++ renderInt v ∧ ∀ c ∈ l, c ≠ ';' := by
  have hsep : ∀ c ∈ [',', ' '], c ≠ ';' := by simp
  have hpair (v u : Int) : ∃ l x, renderInt v ++ ',' :: ' ' :: renderInt u = l ++ renderInt x ∧ ∀ c ∈ l, c ≠ ';' := by
    refine ⟨renderInt v ++ [',', ' '], u, by simp, fun c hc => ?_⟩
    rcases List.mem_append.1 hc with hc | hc
    · exact (plain_avoids ((renderInt_spec v).2.1 c hc)).2.2
    · exact hsep c hc
  have hone (v : Int) : ∃ l x, renderInt v = l ++ renderInt x ∧ ∀ c ∈ l, c ≠ ';' := ⟨[], v, rfl, by simp⟩
  cases i with
  | shl w shift => exact hpair w shift
  | shr w shift => exact hpair w shift
  | inc w => exact hone w
  | dec w => exact hone w
  | fmts w => exact hone w
  | fmtb w tcap => exact hpair w tcap

theorem renderOperands_no_comment (i : Instr) : ∀ c ∈ renderOperands i, c ≠ ';' := by
  obtain ⟨l, v, e, hl⟩ := renderOperands_eq_append i
  obtain ⟨-, hv, -⟩ := renderInt_spec v
  intro c hc
  rcases List.mem_append.1 (e ▸ hc) with hc | hc
  · exact hl c hc
  · exact (plain_avoids (hv c hc)).2.2

theorem renderOperands_ends_plain (i : Instr) : ∃ l z, renderOperands i = l ++ [z] ∧ isBlank z = false := by
  obtain ⟨l, v, e, -⟩ := renderOperands_eq_append i
  obtain ⟨hne, hv, -⟩ := renderInt_spec v
  refine ⟨l ++ (renderInt v).dropLast, (renderInt v).getLast hne, ?_, (plain_avoids (hv _ (List.getLast_mem hne))).1⟩
  rw [e, List.append_assoc, List.dropLast_append_getLast]

theorem beforeComment_eq_self {l : List Char} (h : ∀ c ∈ l, c ≠ ';') : beforeComment l = l :=
  List.takeWhile_eq_self_iff.2 fun c hc => by simpa using h c hc

/-- A mnemonic, a blank and an operand field that holds no comment and ends in no blank: the line is read as those
two parts. -/
theorem assemble_line {m r : List Char} {ops : List Int} {i : Instr}
    (hm : m ≠ [] ∧ ∀ c ∈ m, isBlank c = false ∧ c ≠ ';') (hr : ∀ c ∈ r, c ≠ ';')
    (hend : ∃ l z, r = l ++ [z] ∧ isBlank z = false) (hops : operandField (' ' :: r) = some ops)
    (hi : instrOf (m.map capital) ops = .ok i) : assemble (m ++ ' ' :: r) = .ok (some (encode i)) := by
  obtain ⟨hne, hplain⟩ := hm
  have hword : ∀ c ∈ m, (!isBlank c) = true := fun c hc => by simp [(hplain c hc).1]
  have hcomment : beforeComment (m ++ ' ' :: r) = m ++ ' ' :: r := by
    refine beforeComment_eq_self fun c hc => ?_
    rcases List.mem_append.1 hc with hc | hc
    · exact (hplain c hc).2
    · rcases List.mem_cons.1 hc with rfl | hc
      · decide
      · exact hr c hc
  have htrim : trimBlanks (m ++ ' ' :: r) = m ++ ' ' :: r := by
    obtain ⟨a, m', rfl⟩ := List.exists_cons_of_ne_nil hne
    obtain ⟨l, z, rfl, hz⟩ := hend
    have := trimBlanks_ends (m := m' ++ ' ' :: l) (hplain a List.mem_cons_self).1 hz
    simpa using this
  have hfirst : (m ++ ' ' :: r).takeWhile (fun c => !isBlank c) = m := by
    rw [List.takeWhile_append_of_pos hword]; simp [isBlank]
  have hrest : (m ++ ' ' :: r).dropWhile (fun c => !isBlank c) = ' ' :: r := by
    rw [List.dropWhile_append_of_pos hword]; simp [isBlank]
  simp [assemble, hcomment, htrim, hfirst, hrest, hops, hi]

/-- Settles O8: the line splits at its blank into the mnemonic and the operand field, and each reads back. -/
theorem assemblerReadsBackEveryInstruction : Obligations.AssemblerReadsBackEveryInstruction := fun i =>
  assemble_line (mnemonicOf_plain i) (renderOperands_no_comment i) (renderOperands_ends_plain i)
    (operandField_renderOperands i) (instrOf_mnemonicOf i)

/-! ## Reserved OP values (O9) -/

/-- No race check and no operand check comes before the answer (R64). -/
theorem transact_of_reserved {q : Issue} {s : State} (hop : q.cmd.op = 0#8 ∨ 7 ≤ q.cmd.op.toNat) :
    transact q s = .next (if q.resetDuring then s else s.reject) := by
  simp only [transact, decode_reserved hop]

/-- Settles O9: the transaction rejects the command, which answers and counts the response and touches nothing else. -/
theorem reservedOpIsRejected : Obligations.ReservedOpIsRejected := by
  refine ⟨rfl, fun s q rest hin hreset hop => ?_⟩
  rw [step_issue hin, transact_of_reserved hop, hreset]
  rfl

end Sys2Proof.Machine
end

section
/-!
SHL and SHR: what they answer (R83, R86), the value they leave (R87), and the laws of shifting that follow (R88).
Settles O11, O16, O17, O18 and O19.
-/

namespace Sys2Proof.Machine

/-! ## A negative SHIFT (O11) -/

/-- Settles O11: the shift check comes right after the length check, and an error is the command's whole effect. -/
theorem negativeShiftChangesNothing : Obligations.NegativeShiftChangesNothing := by
  intro w shift s hw hneg
  have hl := badLength_eq_false.2 hw
  have hs := badShift_eq_true.2 hneg
  exact ⟨exec_of_raises (.shl hl hs), exec_of_raises (.shr hl hs)⟩

/-! ## A shift that completes -/

/-- What a shift leaves when its two passes leave the buffer `b`: `b` in its storage, and the response OK, 0, 0. -/
def State.shifted (s : State) (b : Buf) : State := (s.setBuf b).respond (Response.success 0 false)

section shifted
variable (s : State) (b : Buf)
@[simp] theorem shifted_storage : (s.shifted b).storage = { s.storage with buf := b } := setBuf_storage s b

theorem shifted_answered : Answered s (s.shifted b) { status := .ok, count := 0, wrap := false } := ⟨rfl, rfl⟩

theorem shifted_sameOutside : SameOutside s (s.shifted b) := sameOutside_setStorage s _ _
end shifted

theorem exec_shl {s : State} {w : Int} {shift : Nat} {b : Buf} (hw : validLength s w)
    (h : shiftLeft s.wb w.toNat shift s.storage.buf = .ok b) : exec (.shl w shift) s = .next (s.shifted b) :=
  exec_of_performs (.shl (badLength_eq_false.2 hw) (badShift_eq_false.2 (Int.natCast_nonneg shift)) h)

theorem exec_shr {s : State} {w : Int} {shift : Nat} {b : Buf} (hw : validLength s w)
    (h : shiftRight s.wb w.toNat shift s.storage.buf = .ok b) : exec (.shr w shift) s = .next (s.shifted b) :=
  exec_of_performs (.shr (badLength_eq_false.2 hw) (badShift_eq_false.2 (Int.natCast_nonneg shift)) h)

/-- A buffer of the same CAP that differs from the old one below W alone is the only change (R26, R50). -/
theorem shifted_onlyWords {s : State} {b : Buf} {w : Nat} (hcap : b.cap = s.storage.buf.cap)
    (hwords : ∀ k, w ≤ k → b.words.read k = s.storage.buf.words.read k) : OnlyWords 0 w s (s.shifted b) := by
  rw [OnlyWords, shifted_storage]
  exact ⟨shifted_sameOutside s b, hcap, rfl, rfl, rfl, fun k hk => hwords k (hk.resolve_left (Nat.not_lt_zero k))⟩

/-! ## A shift by 0 (O18) -/

theorem shiftLeft_zero (wb w : Nat) (b : Buf) : shiftLeft wb w 0 b = .ok b := by
  simp [shiftLeft, wholeWordLeft, subWordPass, shift1, shift2]

theorem shiftRight_zero (wb w : Nat) (b : Buf) : shiftRight wb w 0 b = .ok b := by
  simp [shiftRight, wholeWordRight, subWordPass, shift1, shift2]

/-- Settles O18: both parts of the shift are 0, so both passes are skipped and the buffer is the old one. -/
theorem shiftByZeroChangesNoStorage : Obligations.ShiftByZeroChangesNoStorage := by
  intro s w hw
  have hsame : (s.shifted s.storage.buf).storage = s.storage := shifted_storage s _
  constructor
  · exact ⟨_, exec_shl (shift := 0) hw (shiftLeft_zero _ _ _), shifted_answered s _, shifted_sameOutside s _, hsame⟩
  · exact ⟨_, exec_shr (shift := 0) hw (shiftRight_zero _ _ _), shifted_answered s _, shifted_sameOutside s _, hsame⟩

/-! ## The value a shift leaves (O16, O17) -/

theorem validLength.le_cap {s : State} {w : Nat} (h : validLength s w) : w ≤ s.storage.buf.cap :=
  Int.ofNat_le.1 h.2

/-- Settles O16: the two passes leave the shifted value, and the frame is that of `shiftLeft`. -/
theorem shlShiftsTheValueLeft : Obligations.ShlShiftsTheValueLeft := by
  intro s w shift ws hs hw hlen hfit hws
  obtain ⟨b, hb, hval⟩ := shiftLeft_agrees hs.1 hw.le_cap hlen hfit hws
  obtain ⟨hcap, hwords⟩ := shiftLeft_frame hb
  refine ⟨_, exec_shl hw hb, shifted_answered s b, ?_, shifted_onlyWords hcap hwords⟩
  rwa [shifted_storage]

/-- Settles O17: the two passes leave the shifted value, and the frame is that of `shiftRight`. -/
theorem shrShiftsTheValueRight : Obligations.ShrShiftsTheValueRight := by
  intro s w shift ws hs hw hlen hfit hws
  obtain ⟨b, hb, hval⟩ := shiftRight_agrees hs.1 hw.le_cap hlen hfit hws
  obtain ⟨hcap, hwords⟩ := shiftRight_frame hb
  refine ⟨_, exec_shr hw hb, shifted_answered s b, ?_, shifted_onlyWords hcap hwords⟩
  rwa [shifted_storage]

/-! ## Shifts as a map of values -/

/-- A state on which a command with word count `w` is valid and finds the value `v` of N bits in its words. -/
structure Ready (s : State) (w v : Nat) : Prop where
  inv : s.Inv
  valid : validLength s w
  lt : v < 2 ^ (w * s.wb)
  holds : HoldsValue s w v

/-- The command takes every state of words of `wb` bits that holds `v` to one that holds `u`. -/
def TakesValue (wb w : Nat) (i : Instr) (v u : Nat) : Prop :=
  ∀ s : State, s.wb = wb → Ready s w v → ∃ t, exec i s = .next t ∧ t.wb = wb ∧ Ready t w u

/-- A command that completes with these words in `[0, W)`, CAP as before, leaves a state for the next command. -/
theorem Ready.next {s t : State} {i : Instr} {w v u : Nat} (h : Ready s w v) (he : exec i s = .next t)
    (hu : u < 2 ^ (w * s.wb)) (ht : t.storage.buf.Agrees (fromval s.wb u w) 0 w) (honly : OnlyWords 0 w s t) :
    t.wb = s.wb ∧ Ready t w u := by
  obtain ⟨⟨hparams, -⟩, hcap, -⟩ := honly
  have hwb : t.wb = s.wb := congrArg Params.wordBits hparams
  refine ⟨hwb, exec_inv h.inv he, ⟨h.valid.1, hcap ▸ h.valid.2⟩, hwb ▸ hu, ?_⟩
  rwa [HoldsValue, hwb]

theorem shl_takesValue (wb w S v : Nat) :
    TakesValue wb w (.shl w S) v ((v <<< S) % 2 ^ (w * wb)) := by
  rintro s rfl h
  obtain ⟨t, he, -, hval, honly⟩ := shlShiftsTheValueLeft s w S (fromval s.wb v w) h.inv h.valid
    (length_fromval _ _ _) (fromval_fit _ _ _) (h.holds.mono (Nat.zero_le _) (Nat.le_refl w))
  rw [val_fromval_of_lt h.lt] at hval
  exact ⟨t, he, h.next he (Nat.mod_lt _ (Nat.two_pow_pos _)) hval honly⟩

theorem shr_takesValue (wb w S v : Nat) : TakesValue wb w (.shr w S) v (v >>> S) := by
  rintro s rfl h
  obtain ⟨t, he, -, hval, honly⟩ := shrShiftsTheValueRight s w S (fromval s.wb v w) h.inv h.valid
    (length_fromval _ _ _) (fromval_fit _ _ _) (h.holds.mono (Nat.le_refl 0) (Nat.sub_le w _))
  rw [val_fromval_of_lt h.lt] at hval
  exact ⟨t, he, h.next he (Nat.lt_of_le_of_lt (Nat.shiftRight_le v S) h.lt) hval honly⟩

theorem TakesValue.leaves {s : State} {i : Instr} {w v u : Nat} (hi : TakesValue s.wb w i v u)
    (h : Ready s w v) : Leaves i s w u := by
  obtain ⟨t, ht, hwb, hready⟩ := hi s rfl h
  exact ⟨t, ht, hwb ▸ hready.holds⟩

theorem TakesValue.bothLeave {s : State} {i j : Instr} {w v u x : Nat} (hi : TakesValue s.wb w i v u)
    (hj : TakesValue s.wb w j u x) (h : Ready s w v) : BothLeave i j s w x := by
  obtain ⟨t, ht, hwb, hready⟩ := hi s rfl h
  obtain ⟨t', ht', hwb', hready'⟩ := hj t hwb hready
  exact ⟨t', by rw [execBoth, ht]; exact ht', hwb' ▸ hready'.holds⟩

/-- Words that agree with the words of two N-bit values on `[0, W)`: the values are one. -/
theorem eq_of_agrees_fromval {wb w v u : Nat} {b : Buf} (hv : v < 2 ^ (w * wb)) (hu : u < 2 ^ (w * wb))
    (h : b.Agrees (fromval wb v w) 0 w) (h' : b.Agrees (fromval wb u w) 0 w) : v = u := by
  have hwords : fromval wb v w = fromval wb u w := by
    refine List.ext_getElem? fun k => ?_
    by_cases hk : k < w
    · obtain ⟨x, hx, hr⟩ := h k (Nat.zero_le k) hk
      obtain ⟨y, hy, hr'⟩ := h' k (Nat.zero_le k) hk
      rw [hx, hy, ← hr, hr']
    · rw [List.getElem?_eq_none (by simp; omega), List.getElem?_eq_none (by simp; omega)]
  rw [← val_fromval_of_lt hv, hwords, val_fromval_of_lt hu]

/-- Two commands leave at most one N-bit value. -/
theorem BothLeave.unique {i j : Instr} {s : State} {w v u : Nat} (hv : v < 2 ^ (w * s.wb))
    (hu : u < 2 ^ (w * s.wb)) (h : BothLeave i j s w v) (h' : BothLeave i j s w u) : v = u := by
  obtain ⟨t, ht, ha⟩ := h
  obtain ⟨t', ht', ha'⟩ := h'
  obtain rfl : t = t' := Host.Outcome.next.inj (ht.symm.trans ht')
  exact eq_of_agrees_fromval hv hu ha ha'

/-! ## The laws (O19) -/

theorem shiftRight_eq_zero_of_le {v N S : Nat} (hv : v < 2 ^ N) (h : N ≤ S) : v >>> S = 0 :=
  Nat.shiftRight_eq_zero v S (Nat.lt_of_lt_of_le hv (Nat.pow_le_pow_right (by decide) h))

theorem shiftLeft_mod_eq_zero_of_le {v N S : Nat} (h : N ≤ S) : (v <<< S) % 2 ^ N = 0 := by
  rw [Nat.shiftLeft_eq]
  exact Nat.mod_eq_zero_of_dvd (Dvd.dvd.mul_left (Nat.pow_dvd_pow 2 h) v)

/-- Right and then left clears the low S bits. -/
theorem shiftRight_shiftLeft_mod {v N S : Nat} (hv : v < 2 ^ N) :
    ((v >>> S) <<< S) % 2 ^ N = v - v % 2 ^ S := by
  rw [Nat.shiftRight_eq_div_pow, Nat.shiftLeft_eq, Nat.div_mul_self_eq_mod_sub_self]
  exact Nat.mod_eq_of_lt (Nat.lt_of_le_of_lt (Nat.sub_le _ _) hv)

/-- Left and then right clears the high S bits. -/
theorem shiftLeft_mod_shiftRight {v N S : Nat} (h : S ≤ N) :
    ((v <<< S) % 2 ^ N) >>> S = v &&& (2 ^ (N - S) - 1) := by
  have hN : 2 ^ N = 2 ^ (N - S) * 2 ^ S := by rw [← Nat.pow_add, Nat.sub_add_cancel h]
  rw [Nat.shiftLeft_eq, hN, Nat.mul_mod_mul_right, Nat.shiftRight_eq_div_pow,
    Nat.mul_div_cancel _ (Nat.two_pow_pos S), Nat.and_two_pow_sub_one_eq_mod]

theorem shiftLeft_mod_shiftLeft_mod (v N a b : Nat) :
    ((v <<< a) % 2 ^ N) <<< b % 2 ^ N = v <<< (a + b) % 2 ^ N := by
  rw [Nat.shiftLeft_eq _ b, Nat.mod_mul_mod, ← Nat.shiftLeft_eq, Nat.shiftLeft_add]

/-- SHR S and then SHL S on an N-bit value: its low S bits cleared. -/
theorem shr_shl_bothLeave {s : State} {w v : Nat} (h : Ready s w v) (S : Nat) :
    BothLeave (.shr w S) (.shl w S) s w (v - v % 2 ^ S) := by
  rw [← shiftRight_shiftLeft_mod h.lt]
  exact (shr_takesValue _ w S v).bothLeave (shl_takesValue _ w S _) h

/-- It leaves the value as it was exactly when those bits were 0, since it leaves no second value. -/
theorem shr_shl_bothLeave_self_iff {s : State} {w v : Nat} (h : Ready s w v) (S : Nat) :
    BothLeave (.shr w S) (.shl w S) s w v ↔ v % 2 ^ S = 0 := by
  have hleaves := shr_shl_bothLeave h S
  constructor
  · intro hself
    have heq := hself.unique h.lt (Nat.lt_of_le_of_lt (Nat.sub_le _ _) h.lt) hleaves
    have hle := Nat.mod_le v (2 ^ S)
    omega
  · intro hzero
    simpa [hzero] using hleaves

/-- Settles O19: each law of R88, in its order, is one of arithmetic on the values that SHL and SHR take to each
other. -/
theorem shiftLawsHold : Obligations.ShiftLawsHold := by
  intro s w v hs hw hv hold
  have h : Ready s w v := ⟨hs, hw, hv, hold⟩
  have shl (S : Nat) := (shl_takesValue s.wb w S v).leaves h
  have shr (S : Nat) := (shr_takesValue s.wb w S v).leaves h
  refine ⟨⟨?_, shr 0⟩, fun S hS => ⟨?_, ?_⟩,
    fun S => ⟨fun _ => shr_shl_bothLeave h S, fun hS => ?_, shr_shl_bothLeave_self_iff h S⟩,
    fun S hS => ?_, fun a b => ⟨⟨_, ?_, shl (a + b)⟩, ⟨_, ?_, shr (a + b)⟩⟩⟩
  · simpa [Nat.mod_eq_of_lt hv] using shl 0
  · exact shiftLeft_mod_eq_zero_of_le (v := v) hS ▸ shl S
  · exact shiftRight_eq_zero_of_le hv hS ▸ shr S
  · have hlt : v < 2 ^ S := Nat.lt_of_lt_of_le hv (Nat.pow_le_pow_right (by decide) hS)
    simpa [Nat.mod_eq_of_lt hlt] using shr_shl_bothLeave h S
  · rw [← shiftLeft_mod_shiftRight (Nat.le_of_lt hS)]
    exact (shl_takesValue s.wb w S v).bothLeave (shr_takesValue _ w S _) h
  · rw [← shiftLeft_mod_shiftLeft_mod]
    exact (shl_takesValue s.wb w a v).bothLeave (shl_takesValue _ w b _) h
  · rw [Nat.shiftRight_add]
    exact (shr_takesValue s.wb w a v).bothLeave (shr_takesValue _ w b _) h

end Sys2Proof.Machine
end

section
/-!
The passes of a shift on the buffer: the whole-word passes as moves of words (R81, R84), and the sub-word passes as the
source's loops (R82, R85). Settles O20 and O21.
-/

namespace Sys2Proof.Machine

/-- Written words are the words of some list. -/
theorem Buf.exists_agrees {b : Buf} {w lo hi : Nat} (hhi : hi ≤ w)
    (h : ∀ k, lo ≤ k → k < hi → (b.words.read k).isSome) : ∃ ws, ws.length = w ∧ b.Agrees ws lo hi := by
  refine ⟨(List.range w).map fun k => (b.words.read k).getD 0, by simp, fun k hlo hk => ?_⟩
  obtain ⟨v, hv⟩ := Option.isSome_iff_exists.1 (h k hlo hk)
  exact ⟨v, by simp [show k < w by omega, hv], hv⟩

/-! ## The whole-word passes (O20) -/

/-- Settles O20: the pass completes because the words it reads are those of some list, and what it then leaves is
said by `wholeWordLeft_spec` and `wholeWordRight_spec`. -/
theorem wholeWordPassesMoveWords : Obligations.WholeWordPassesMoveWords := by
  intro w s1 b hcap
  constructor
  · intro hread
    obtain ⟨ws, hlen, hws⟩ := b.exists_agrees (Nat.le_refl w) hread
    obtain ⟨b', hb', -⟩ := wholeWordLeft_agrees hcap hlen hws
    obtain ⟨hcap', hmoved, hframe⟩ := wholeWordLeft_spec hb'
    refine ⟨b', hb', hcap', fun k hk => ?_, hframe⟩
    rw [hmoved k hk]
    split
    · rfl
    · rw [if_neg (by omega)]
  · intro hread
    obtain ⟨ws, hlen, hws⟩ := b.exists_agrees (lo := 0) (Nat.sub_le w s1) fun k _ hk => hread k (by omega)
    obtain ⟨b', hb', -⟩ := wholeWordRight_agrees hcap hlen hws
    exact ⟨b', hb', wholeWordRight_spec hb'⟩

/-! ## The sub-word passes (O21) -/

theorem subWordPass_zero (pass : List Nat → List Nat) (w : Nat) (b : Buf) : subWordPass pass w 0 b = .ok b :=
  if_pos rfl

theorem Buf.readRun_succ_ok {b : Buf} {w k n : Nat} {ws : List Nat} (h : b.readRun w k (n + 1) = .ok ws) :
    ∃ x xs, ws = x :: xs ∧ b.read w k = .ok x ∧ b.readRun w (k + 1) n = .ok xs := by
  rw [Buf.readRun] at h
  split at h
  · cases h
  · next x hx =>
    split at h
    · cases h
    · next xs hxs => cases h; exact ⟨x, xs, rfl, hx, hxs⟩

/-- A run of reads does not see a write below it. -/
theorem Buf.readRun_write_of_lt {b : Buf} {w j k n v : Nat} (hj : j < k) :
    Buf.readRun { b with words := b.words.write j v } w k n = b.readRun w k n := by
  induction n generalizing k with
  | zero => rfl
  | succ n ih =>
    simp only [Buf.readRun, Buf.read, Memory.read_write_of_ne b.words v (Nat.ne_of_gt hj), ih (Nat.lt_succ_of_lt hj)]

/-- R82's loop reads no word it wrote, so it is the run of writes of the pass's words. -/
theorem walkLeft_eq_writeRun {wb s2 w n k : Nat} {b : Buf} {ws : List Nat} (h : b.readRun w k (n + 1) = .ok ws) :
    walkLeft wb s2 w n k b = b.writeRun w k (subWordLeft wb s2 ws) := by
  induction n generalizing k b ws with
  | zero =>
    obtain ⟨x, xs, rfl, hx, hxs⟩ := Buf.readRun_succ_ok h
    obtain ⟨hw, hc, -⟩ := Buf.read_ok.1 hx
    cases hxs
    simp only [walkLeft, hx, subWordLeft, Buf.writeRun, Buf.write_of_lt _ hw hc]
  | succ n ih =>
    obtain ⟨x, xs, rfl, hx, hxs⟩ := Buf.readRun_succ_ok h
    obtain ⟨y, ys, rfl, hy, -⟩ := Buf.readRun_succ_ok hxs
    obtain ⟨hw, hc, -⟩ := Buf.read_ok.1 hx
    simp only [walkLeft, hx, hy, subWordLeft, Buf.writeRun, Buf.write_of_lt _ hw hc]
    exact ih ((Buf.readRun_write_of_lt (Nat.lt_succ_self k)).trans hxs)

theorem getElem?_subWordRightAfter {wb s p : Nat} {ws : List Nat} {k x y : Nat} (hx : ws[k]? = some x)
    (hy : (p :: ws)[k]? = some y) :
    (subWordRightAfter wb s p ws)[k]? = some ((x >>> s) ||| trunc wb (y <<< (wb - s))) := by
  induction ws generalizing p k with
  | nil => cases hx
  | cons z ws ih =>
    cases k with
    | zero => cases hx; cases hy; rfl
    | succ k => exact ih hx hy

/-- The boundary word 0 receives no carry-in (R85). -/
theorem getElem?_subWordRight_zero {wb s : Nat} {ws : List Nat} {x : Nat} (hx : ws[0]? = some x) :
    (subWordRight wb s ws)[0]? = some (x >>> s) := by
  cases ws with
  | nil => cases hx
  | cons z ws => cases hx; rfl

/-- Every other word receives its carry-in from the word before it (R85). -/
theorem getElem?_subWordRight_succ {wb s : Nat} {ws : List Nat} {k x y : Nat} (hx : ws[k + 1]? = some x)
    (hy : ws[k]? = some y) :
    (subWordRight wb s ws)[k + 1]? = some ((x >>> s) ||| trunc wb (y <<< (wb - s))) := by
  cases ws with
  | nil => cases hx
  | cons z ws => exact getElem?_subWordRightAfter hx hy

/-- The last step of R85's loop, at the boundary word. -/
theorem walkRight_zero {wb s2 w x : Nat} {b : Buf} (hw : 0 < w) (hc : 0 < b.cap) (hx : b.words.read 0 = some x) :
    walkRight wb s2 w 0 b = .ok { b with words := b.words.write 0 (x >>> s2) } := by
  simp only [walkRight, Buf.read_ok.2 ⟨hw, hc, hx⟩, Buf.write_of_lt _ hw hc]

/-- Every other step of R85's loop. -/
theorem walkRight_succ {wb s2 w k x y : Nat} {b : Buf} (hw : k + 1 < w) (hc : k + 1 < b.cap)
    (hx : b.words.read (k + 1) = some x) (hy : b.words.read k = some y) :
    walkRight wb s2 w (k + 1) b = walkRight wb s2 w k
      { b with words := b.words.write (k + 1) ((x >>> s2) ||| trunc wb (y <<< (wb - s2))) } := by
  simp only [walkRight, Buf.read_ok.2 ⟨hw, hc, hx⟩,
    Buf.read_ok.2 ⟨Nat.lt_of_succ_lt hw, Nat.lt_of_succ_lt hc, hy⟩, Buf.write_of_lt _ hw hc]

/-- Agreement does not see a write at or past its end. -/
theorem Buf.Agrees.write_of_le {b : Buf} {ws : List Nat} {lo hi j : Nat} (h : b.Agrees ws lo hi) (hj : hi ≤ j)
    (v : Nat) : Buf.Agrees { b with words := b.words.write j v } ws lo hi := by
  intro k hlo hk
  obtain ⟨u, hu, hr⟩ := h k hlo hk
  exact ⟨u, hu, (Memory.read_write_of_ne b.words v (by omega)).trans hr⟩

/-- R85's loop writes each word after the last read of it: from words `[0, k]` that agree with `ws` it leaves there
the words of the pass, and every word above as it was. -/
theorem walkRight_agrees {wb s2 w k : Nat} {b : Buf} {ws : List Nat} (hw : k < w) (hc : k < b.cap)
    (h : b.Agrees ws 0 (k + 1)) :
    ∃ b', walkRight wb s2 w k b = .ok b' ∧ b'.cap = b.cap ∧ b'.Agrees (subWordRight wb s2 ws) 0 (k + 1) ∧
      ∀ j, k < j → b'.words.read j = b.words.read j := by
  induction k generalizing b with
  | zero =>
    obtain ⟨x, hx, hrx⟩ := h 0 (Nat.le_refl 0) Nat.one_pos
    refine ⟨_, walkRight_zero hw hc hrx, rfl, fun j _ hj => ?_,
      fun j hj => Memory.read_write_of_ne b.words _ (Nat.ne_of_gt hj)⟩
    obtain rfl : j = 0 := by omega
    exact ⟨_, getElem?_subWordRight_zero hx, Memory.read_write_same b.words 0 _⟩
  | succ k ih =>
    obtain ⟨x, hx, hrx⟩ := h (k + 1) (Nat.zero_le _) (by omega)
    obtain ⟨y, hy, hry⟩ := h k (Nat.zero_le _) (by omega)
    rw [walkRight_succ hw hc hrx hry]
    have hrest := (h.mono (Nat.le_refl 0) (Nat.le_succ (k + 1))).write_of_le (Nat.le_refl _)
      ((x >>> s2) ||| trunc wb (y <<< (wb - s2)))
    obtain ⟨b', hb', hcap, hlow, hhigh⟩ := ih (Nat.lt_of_succ_lt hw) (by exact Nat.lt_of_succ_lt hc) hrest
    refine ⟨b', hb', hcap, fun j hj hjk => ?_, fun j hj =>
      (hhigh j (Nat.lt_of_succ_lt hj)).trans (Memory.read_write_of_ne b.words _ (Nat.ne_of_gt hj))⟩
    by_cases hjk' : j < k + 1
    · exact hlow j hj hjk'
    · obtain rfl : j = k + 1 := by omega
      exact ⟨_, getElem?_subWordRight_succ hx hy,
        (hhigh _ (Nat.lt_succ_self k)).trans (Memory.read_write_same b.words _ _)⟩

theorem Buf.Agrees.read_eq {b b' : Buf} {ws : List Nat} {lo hi k : Nat} (h : b.Agrees ws lo hi)
    (h' : b'.Agrees ws lo hi) (hlo : lo ≤ k) (hk : k < hi) : b.words.read k = b'.words.read k := by
  obtain ⟨v, hv, hr⟩ := h k hlo hk
  obtain ⟨u, hu, hr'⟩ := h' k hlo hk
  rw [hr, hr', ← hv, hu]

/-- A sub-word pass that is not skipped is the run of writes of its words. -/
theorem subWordPass_eq_writeRun {pass : List Nat → List Nat} {w s2 : Nat} {b : Buf} {ws : List Nat} (hs : s2 ≠ 0)
    (h : b.readRun w 0 w = .ok ws) : subWordPass pass w s2 b = b.writeRun w 0 (pass ws) := by
  rw [subWordPass, if_neg hs, h]

/-- Settles O21: for SHL the loop and the pass are the same run of writes; for SHR, where the loop writes in the other
order, both leave the same words below W and the old words from W on. -/
theorem subWordPassesWalkInTheFixedOrder : Obligations.SubWordPassesWalkInTheFixedOrder := by
  refine ⟨subWordPass_zero, fun wb s2 w b hs _ hw hcap hread => ?_⟩
  obtain ⟨n, rfl⟩ : ∃ n, w = n + 1 := ⟨w - 1, by omega⟩
  obtain ⟨ws, hlen, hws⟩ := b.exists_agrees (lo := 0) (Nat.le_refl _) fun k _ hk => hread k hk
  have hs0 : s2 ≠ 0 := Nat.ne_of_gt hs
  have hall := hws.readAll hcap hlen
  constructor
  · obtain ⟨b1, hb1, -⟩ := subWordPass_agrees (s2 := s2) (length_subWordLeft wb s2) hcap hlen hws
    refine ⟨b1, b1, ?_, hb1, rfl, fun _ => rfl⟩
    rw [Nat.add_sub_cancel, walkLeft_eq_writeRun hall, ← subWordPass_eq_writeRun hs0 hall, hb1]
  · obtain ⟨b1, hb1, hcap1, hlow1, hhigh1⟩ := walkRight_agrees (wb := wb) (s2 := s2) (Nat.lt_succ_self n) hcap hws
    obtain ⟨b2, hb2, hlow2⟩ := subWordPass_agrees (s2 := s2) (length_subWordRight wb s2) hcap hlen hws
    rw [if_neg hs0] at hlow2
    obtain ⟨hcap2, hhigh2⟩ := subWordPass_cap (length_subWordRight wb s2) hb2
    refine ⟨b1, b2, hb1, hb2, hcap1.trans hcap2.symm, fun k => ?_⟩
    by_cases hk : k < n + 1
    · exact hlow1.read_eq hlow2 (Nat.zero_le k) hk
    · exact (hhigh1 k (by omega)).trans (hhigh2 k (by omega)).symm

end Sys2Proof.Machine
end

section
/-!
INC and DEC: the words their scan writes (R100, R102), the value it leaves (R101, R103), and the laws that follow
(R104). Settles O22, O23, O24, O25 and O26.
-/

namespace Sys2Proof.Machine

/-! ## A scan that ends -/

/-- What INC or DEC leaves when its scan leaves the buffer `b` and says `wrap` (R100, R102): `b` in its storage, and the
response OK, 0, `wrap`. -/
def State.scanned (s : State) (b : Buf) (wrap : Bool) : State := (s.setBuf b).respond (Response.success 0 wrap)

section scanned
variable (s : State) (b : Buf) (wrap : Bool)
@[simp] theorem scanned_storage : (s.scanned b wrap).storage = { s.storage with buf := b } := setBuf_storage s b

theorem scanned_answered : Answered s (s.scanned b wrap) { status := .ok, count := 0, wrap := wrap } := ⟨rfl, rfl⟩
end scanned

/-- A buffer of the same CAP that differs from the old one in `[lo, hi)` alone is the only change (R26, R50). -/
theorem scanned_onlyWords {s : State} {b : Buf} {wrap : Bool} {lo hi : Nat} (hcap : b.cap = s.storage.buf.cap)
    (hwords : ∀ k, (k < lo ∨ hi ≤ k) → b.words.read k = s.storage.buf.words.read k) :
    OnlyWords lo hi s (s.scanned b wrap) := by
  rw [OnlyWords, scanned_storage]
  exact ⟨sameOutside_setStorage s _ _, hcap, rfl, rfl, rfl, hwords⟩

/-- On this state the command is this scan of its `w` words. -/
def Scans (i : Instr) (s : State) (w boundary wrapped : Nat) (absorb : Nat → Nat) : Prop :=
  w ≤ s.storage.buf.cap ∧ ∀ b wrap, Buf.propagate w boundary wrapped absorb w s.storage.buf = .ok (b, wrap) →
    exec i s = .next (s.scanned b wrap)

theorem inc_scans {s : State} {w : Nat} (hw : validLength s w) :
    Scans (.inc w) s w (typeMax s.wb) 0 fun x => x + 1 :=
  ⟨hw.le_cap, fun _ _ h => exec_of_performs (.inc (badLength_eq_false.2 hw) h)⟩

theorem dec_scans {s : State} {w : Nat} (hw : validLength s w) :
    Scans (.dec w) s w 0 (typeMax s.wb) fun x => x - 1 :=
  ⟨hw.le_cap, fun _ _ h => exec_of_performs (.dec (badLength_eq_false.2 hw) h)⟩

section
variable {w boundary wrapped : Nat} {absorb : Nat → Nat}

/-! ## The word that absorbs (O24, O25) -/

/-- The word that absorbs is the largest index whose word is not at the boundary, so there is one, and the scan
writes exactly the words from it on. -/
theorem propagate_stopsAt {n j x : Nat} {b : Buf} (hw : n ≤ w) (hc : n ≤ b.cap) (hj : j < n)
    (hx : b.words.read j = some x) (hne : x ≠ boundary)
    (hb : ∀ k, j < k → k < n → b.words.read k = some boundary) :
    ∃ b', Buf.propagate w boundary wrapped absorb n b = .ok (b', false) ∧ b'.cap = b.cap ∧
      ∀ k, b'.words.read k = if k = j then some (absorb x)
        else if j < k ∧ k < n then some wrapped else b.words.read k := by
  obtain ⟨b', hb'⟩ := propagate_absorbed (wrapped := wrapped) (absorb := absorb) hw hc hj hx hne hb
  obtain ⟨hcap, ⟨-, j', x', hj', hx', hne', hbelow', hread⟩ | ⟨htrue, -⟩⟩ := propagate_spec hb'
  · have hjj : j' = j := by
      rcases Nat.lt_trichotomy j' j with hlt | heq | hgt
      · exact absurd (Option.some.inj (hx.symm.trans (hbelow' j hlt hj))) hne
      · exact heq
      · exact absurd (Option.some.inj (hx'.symm.trans (hb j' hgt hj'))) hne'
    subst hjj
    obtain rfl : x' = x := Option.some.inj (hx'.symm.trans hx)
    exact ⟨b', hb', hcap, hread⟩
  · cases htrue

theorem Scans.stopsAt {i : Instr} {s : State} {j x : Nat} (hi : Scans i s w boundary wrapped absorb) (hj : j < w)
    (hx : s.storage.buf.words.read j = some x) (hne : x ≠ boundary)
    (hb : ∀ k, j < k → k < w → s.storage.buf.words.read k = some boundary) :
    ∃ t, exec i s = .next t ∧ Answered s t { status := .ok, count := 0, wrap := false } ∧
      t.storage.buf.words.read j = some (absorb x) ∧
      (∀ k, j < k → k < w → t.storage.buf.words.read k = some wrapped) ∧ OnlyWords j w s t := by
  obtain ⟨hcap, hexec⟩ := hi
  obtain ⟨b, hscan, hcap', hread⟩ := propagate_stopsAt (Nat.le_refl w) hcap hj hx hne hb
  refine ⟨_, hexec b false hscan, scanned_answered s b false, ?_, fun k hjk hkw => ?_,
    scanned_onlyWords hcap' fun k hk => ?_⟩
  · rw [scanned_storage, hread, if_pos rfl]
  · rw [scanned_storage, hread, if_neg (Nat.ne_of_gt hjk), if_pos ⟨hjk, hkw⟩]
  · rw [hread, if_neg (by omega), if_neg (by omega)]

/-! ## The scan of a list of words -/

/-- From the words before the scan to the words after it and WRAP: some word absorbed it, the words to its right being
at the boundary, or every word was at the boundary (R100, R102). -/
inductive WordScan (boundary wrapped : Nat) (absorb : Nat → Nat) : List Nat → List Nat → Bool → Prop
  | absorbed (a : List Nat) (x n : Nat) (hne : x ≠ boundary) : WordScan boundary wrapped absorb
      (a ++ x :: List.replicate n boundary) (a ++ absorb x :: List.replicate n wrapped) false
  | wrapped (n : Nat) : WordScan boundary wrapped absorb (List.replicate n boundary) (List.replicate n wrapped) true

theorem WordScan.exists (boundary wrapped : Nat) (absorb : Nat → Nat) (ws : List Nat) :
    ∃ ws' wrap, WordScan boundary wrapped absorb ws ws' wrap := by
  induction ws with
  | nil => exact ⟨_, _, .wrapped 0⟩
  | cons x ws ih =>
    obtain ⟨_, _, ⟨a, y, n, hy⟩ | n⟩ := ih
    · exact ⟨_, _, .absorbed (x :: a) y n hy⟩
    · by_cases hx : x = boundary
      · exact hx ▸ ⟨_, _, .wrapped (n + 1)⟩
      · exact ⟨_, _, .absorbed [] x n hx⟩

variable {ws ws' : List Nat} {wrap : Bool}

theorem WordScan.length_eq (h : WordScan boundary wrapped absorb ws ws' wrap) : ws'.length = ws.length := by
  cases h <;> simp

theorem WordScan.wrap_eq (h : WordScan boundary wrapped absorb ws ws' wrap) :
    wrap = decide (∀ x ∈ ws, x = boundary) := by
  cases h with
  | absorbed a x n hne => exact (decide_eq_false fun hall => hne (hall x (by simp))).symm
  | wrapped n => exact (decide_eq_true fun _ hx => List.eq_of_mem_replicate hx).symm

theorem Buf.agrees_iff {b : Buf} {ws : List Nat} {lo hi : Nat} (hhi : hi ≤ ws.length) :
    b.Agrees ws lo hi ↔ ∀ k, lo ≤ k → k < hi → b.words.read k = ws[k]? := by
  refine forall_congr' fun k => forall_congr' fun _ => forall_congr' fun hk => ?_
  rw [List.getElem?_eq_getElem (Nat.lt_of_lt_of_le hk hhi)]
  simp

theorem getElem?_append_cons_replicate {a : List Nat} {x n c k : Nat} (hk : k < a.length + (n + 1)) :
    (a ++ x :: List.replicate n c)[k]? = if k = a.length then some x else if a.length < k then some c else a[k]? := by
  rcases Nat.lt_trichotomy k a.length with hlt | rfl | hgt
  · rw [List.getElem?_append_left hlt, if_neg (by omega), if_neg (by omega)]
  · simp
  · obtain ⟨m, rfl⟩ := Nat.exists_eq_add_of_lt hgt
    rw [List.getElem?_append_right (by omega), if_neg (by omega), if_pos hgt, Nat.add_assoc, Nat.add_sub_cancel_left,
      List.getElem?_cons_succ, List.getElem?_replicate_of_lt (by omega)]

/-- The scan of the buffer is the scan of the words it holds. -/
theorem WordScan.propagate (h : WordScan boundary wrapped absorb ws ws' wrap) {b : Buf} (hlen : ws.length = w)
    (hc : w ≤ b.cap) (hb : b.Agrees ws 0 w) :
    ∃ b', Buf.propagate w boundary wrapped absorb w b = .ok (b', wrap) ∧ b'.Agrees ws' 0 w := by
  rw [Buf.agrees_iff (by omega)] at hb
  have hlen' := h.length_eq.trans hlen
  cases h with
  | absorbed a x n hne =>
    have hw : w = a.length + (n + 1) := by simpa using hlen.symm
    have hx : b.words.read a.length = some x := by simp [hb a.length (by omega) (by omega)]
    obtain ⟨b', hscan, -, hread⟩ := propagate_stopsAt (wrapped := wrapped) (absorb := absorb) (Nat.le_refl w) hc
      (by omega) hx hne fun k hjk hk => by
        rw [hb k (by omega) hk, getElem?_append_cons_replicate (by omega), if_neg (by omega), if_pos hjk]
    refine ⟨b', hscan, (Buf.agrees_iff (by omega)).2 fun k h0 hk => ?_⟩
    rw [hread, hb k h0 hk, getElem?_append_cons_replicate (by omega), getElem?_append_cons_replicate (by omega)]
    split
    · rfl
    · simp only [hk, and_true]
      split <;> rfl
  | wrapped n =>
    obtain rfl : n = w := by simpa using hlen
    obtain ⟨b', hscan⟩ := propagate_wrapped (wrapped := wrapped) (absorb := absorb) (Nat.le_refl n) hc
      fun k hk => by rw [hb k (by omega) hk, List.getElem?_replicate_of_lt hk]
    refine ⟨b', hscan, (Buf.agrees_iff (by omega)).2 fun k _ hk => ?_⟩
    obtain ⟨-, ⟨hfalse, -⟩ | ⟨-, -, hread⟩⟩ := propagate_spec hscan
    · cases hfalse
    · rw [hread, if_pos hk, List.getElem?_replicate_of_lt hk]

theorem Scans.leavesWords {i : Instr} {s : State} (hi : Scans i s w boundary wrapped absorb)
    (h : WordScan boundary wrapped absorb ws ws' wrap) (hlen : ws.length = w) (hb : s.storage.buf.Agrees ws 0 w) :
    ∃ t, exec i s = .next t ∧
      Answered s t { status := .ok, count := 0, wrap := decide (∀ x ∈ ws, x = boundary) } ∧
      t.storage.buf.Agrees ws' 0 w ∧ OnlyWords 0 w s t := by
  obtain ⟨hcap, hexec⟩ := hi
  obtain ⟨b, hscan, hb'⟩ := h.propagate hlen hcap hb
  obtain ⟨hcap', hframe⟩ := propagate_frame hscan
  refine ⟨_, hexec b wrap hscan, h.wrap_eq ▸ scanned_answered s b wrap, ?_,
    scanned_onlyWords hcap' fun k hk => hframe k (by omega)⟩
  rwa [scanned_storage]

end

/-- Settles O24: INC is the scan that a word below TYPE_MAX absorbs. -/
theorem incStopsAtTheWordThatAbsorbs : Obligations.IncStopsAtTheWordThatAbsorbs :=
  fun _ _ _ _ hw hj hx hne hb => (inc_scans hw).stopsAt hj hx hne hb

/-- Settles O25: DEC is the scan that a nonzero word absorbs. -/
theorem decStopsAtTheWordThatAbsorbs : Obligations.DecStopsAtTheWordThatAbsorbs :=
  fun _ _ _ _ hw hj hx hne hb => (dec_scans hw).stopsAt hj hx hne hb

/-! ## The value a scan leaves (O22, O23) -/

/-- Stepping up and then down in the residues of `M`. -/
theorem succ_mod_pred_mod {v M : Nat} (hv : v < M) : ((v + 1) % M + M - 1) % M = v := by
  rcases Nat.lt_or_eq_of_le hv with hlt | heq
  · rw [Nat.mod_eq_of_lt hlt, show v + 1 + M - 1 = v + M by omega, Nat.add_mod_right, Nat.mod_eq_of_lt hv]
  · rw [← Nat.succ_eq_add_one, heq, Nat.mod_self, Nat.zero_add, Nat.mod_eq_of_lt (by omega)]
    omega

/-- Stepping down and then up in the residues of `M`. -/
theorem pred_mod_succ_mod {v M : Nat} (hv : v < M) : ((v + M - 1) % M + 1) % M = v := by
  rw [Nat.mod_add_mod, show v + M - 1 + 1 = v + M by omega, Nat.add_mod_right, Nat.mod_eq_of_lt hv]

section
variable {wb : Nat} {ws ws' : List Nat} {wrap : Bool}

/-- The words after the scan are words again, where the absorbing word stays one. -/
theorem WordScan.fit {boundary wrapped : Nat} {absorb : Nat → Nat}
    (h : WordScan boundary wrapped absorb ws ws' wrap) (hwr : wrapped ≤ typeMax wb)
    (hab : ∀ x, x ≤ typeMax wb → x ≠ boundary → absorb x ≤ typeMax wb) (hfit : WordsFit wb ws) :
    WordsFit wb ws' := by
  have hrep (n : Nat) : WordsFit wb (List.replicate n wrapped) := fun _ hy => List.eq_of_mem_replicate hy ▸ hwr
  cases h with
  | absorbed a x n hne =>
    obtain ⟨ha, hx⟩ := WordsFit.append.1 hfit
    have hx' : x ≤ typeMax wb := hx x List.mem_cons_self
    exact WordsFit.append.2 ⟨ha, WordsFit.cons.2 ⟨le_typeMax_iff.1 (hab x hx' hne), hrep n⟩⟩
  | wrapped n => exact hrep n

theorem WordScan.inc_fit (h : WordScan (typeMax wb) 0 (fun x => x + 1) ws ws' wrap) (hfit : WordsFit wb ws) :
    WordsFit wb ws' :=
  h.fit (Nat.zero_le _) (fun x hx hne => by omega) hfit

theorem WordScan.dec_fit (h : WordScan 0 (typeMax wb) (fun x => x - 1) ws ws' wrap) (hfit : WordsFit wb ws) :
    WordsFit wb ws' :=
  h.fit (Nat.le_refl _) (fun x hx _ => by omega) hfit

/-- R101: a carry that is absorbed adds 1, and one that leaves the buffer takes all ones to 0. -/
theorem WordScan.inc_val (h : WordScan (typeMax wb) 0 (fun x => x + 1) ws ws' wrap) (hfit : WordsFit wb ws) :
    val wb ws' = (val wb ws + 1) % 2 ^ (wb * ws.length) := by
  have hlt := val_lt (h.inc_fit hfit)
  rw [h.length_eq] at hlt
  cases h with
  | absorbed a x n hne =>
    rw [val_carry] at hlt ⊢
    exact (Nat.mod_eq_of_lt hlt).symm
  | wrapped n => rw [val_zeros, List.length_replicate, val_allOnes, Nat.mod_self]

/-- The borrow scan undone is the carry scan. -/
theorem WordScan.reverse (h : WordScan 0 (typeMax wb) (fun x => x - 1) ws ws' wrap) (hfit : WordsFit wb ws) :
    WordScan (typeMax wb) 0 (fun x => x + 1) ws' ws wrap := by
  cases h with
  | absorbed a x n hne =>
    have hx : x ≤ typeMax wb := hfit x (by simp)
    obtain ⟨y, rfl⟩ := Nat.exists_eq_succ_of_ne_zero hne
    exact .absorbed a y n (by omega)
  | wrapped n => exact .wrapped n

/-- R103: DEC leaves the value that INC would take back. -/
theorem WordScan.dec_val (h : WordScan 0 (typeMax wb) (fun x => x - 1) ws ws' wrap) (hfit : WordsFit wb ws) :
    val wb ws' = (val wb ws + 2 ^ (wb * ws.length) - 1) % 2 ^ (wb * ws.length) := by
  have hfit' := h.dec_fit hfit
  have hlt := val_lt hfit'
  rw [(h.reverse hfit).inc_val hfit', ← h.length_eq, succ_mod_pred_mod hlt]

end

/-- Settles O22: INC leaves the words of the carry scan, and these are the words of their value. -/
theorem incAddsOneModuloTheWidth : Obligations.IncAddsOneModuloTheWidth := by
  rintro s w ws - hw rfl hfit hb
  obtain ⟨ws', wrap, hscan⟩ := WordScan.exists (typeMax s.wb) 0 (fun x => x + 1) ws
  rw [Nat.mul_comm, ← hscan.inc_val hfit, ← eq_fromval (hscan.inc_fit hfit) hscan.length_eq rfl]
  exact (inc_scans hw).leavesWords hscan rfl hb

/-- Settles O23: DEC leaves the words of the borrow scan, and these are the words of their value. -/
theorem decSubtractsOneModuloTheWidth : Obligations.DecSubtractsOneModuloTheWidth := by
  rintro s w ws - hw rfl hfit hb
  obtain ⟨ws', wrap, hscan⟩ := WordScan.exists 0 (typeMax s.wb) (fun x => x - 1) ws
  rw [Nat.mul_comm, ← hscan.dec_val hfit, ← eq_fromval (hscan.dec_fit hfit) hscan.length_eq rfl]
  exact (dec_scans hw).leavesWords hscan rfl hb

/-! ## The laws (O26) -/

theorem inc_takesValue (wb w v : Nat) : TakesValue wb w (.inc w) v ((v + 1) % 2 ^ (w * wb)) := by
  rintro s rfl h
  obtain ⟨t, he, -, hval, honly⟩ := incAddsOneModuloTheWidth s w (fromval s.wb v w) h.inv h.valid
    (length_fromval _ _ _) (fromval_fit _ _ _) h.holds
  rw [val_fromval_of_lt h.lt] at hval
  exact ⟨t, he, h.next he (Nat.mod_lt _ (Nat.two_pow_pos _)) hval honly⟩

theorem dec_takesValue (wb w v : Nat) :
    TakesValue wb w (.dec w) v ((v + 2 ^ (w * wb) - 1) % 2 ^ (w * wb)) := by
  rintro s rfl h
  obtain ⟨t, he, -, hval, honly⟩ := decSubtractsOneModuloTheWidth s w (fromval s.wb v w) h.inv h.valid
    (length_fromval _ _ _) (fromval_fit _ _ _) h.holds
  rw [val_fromval_of_lt h.lt] at hval
  exact ⟨t, he, h.next he (Nat.mod_lt _ (Nat.two_pow_pos _)) hval honly⟩

/-- INC k times adds k (R104). -/
theorem Ready.execTimes_inc {s : State} {w v : Nat} (h : Ready s w v) (k : Nat) :
    ∃ t, execTimes (.inc w) k s = .next t ∧ HoldsValue t w ((v + k) % 2 ^ (w * s.wb)) := by
  induction k generalizing s v with
  | zero => exact ⟨s, rfl, by rw [Nat.add_zero, Nat.mod_eq_of_lt h.lt]; exact h.holds⟩
  | succ k ih =>
    obtain ⟨t, he, hwb, hready⟩ := inc_takesValue s.wb w v s rfl h
    obtain ⟨t', he', hholds⟩ := ih hready
    refine ⟨t', by rw [execTimes, he]; exact he', ?_⟩
    rwa [hwb, Nat.mod_add_mod, Nat.add_assoc, Nat.add_comm 1] at hholds

/-- The words of an N-bit value are all the word `c` exactly when it is the value of that many words `c`. -/
theorem forall_mem_fromval_iff {wb w v c : Nat} (hv : v < 2 ^ (w * wb)) (hc : c ≤ typeMax wb) :
    (∀ x ∈ fromval wb v w, x = c) ↔ v = val wb (List.replicate w c) := by
  have hrep : WordsFit wb (List.replicate w c) := fun _ hx => List.eq_of_mem_replicate hx ▸ hc
  constructor
  · intro hall
    rw [← List.eq_replicate_iff.2 ⟨length_fromval wb v w, hall⟩, val_fromval_of_lt hv]
  · rintro rfl x hx
    rw [← eq_fromval hrep List.length_replicate rfl] at hx
    exact List.eq_of_mem_replicate hx

/-- WRAP says that every word of the value was at the boundary (R104). -/
theorem Scans.wraps_iff {i : Instr} {s : State} {w v boundary wrapped : Nat} {absorb : Nat → Nat}
    (hi : Scans i s w boundary wrapped absorb) (h : Ready s w v) (hb : boundary ≤ typeMax s.wb) :
    ∃ t r, exec i s = .next t ∧ t.response = some r ∧
      (r.wrap = true ↔ v = val s.wb (List.replicate w boundary)) := by
  obtain ⟨_, _, hscan⟩ := WordScan.exists boundary wrapped absorb (fromval s.wb v w)
  obtain ⟨t, he, ⟨hr, -⟩, -⟩ := hi.leavesWords hscan (length_fromval _ _ _) h.holds
  exact ⟨t, _, he, hr, decide_eq_true_iff.trans (forall_mem_fromval_iff h.lt hb)⟩

/-- Settles O26: each law of R104, in its order, is one of arithmetic modulo 2^N on the values that INC and DEC take
to each other. -/
theorem incDecLawsHold : Obligations.IncDecLawsHold := by
  intro s w v hs hw hv hold
  have h : Ready s w v := ⟨hs, hw, hv, hold⟩
  have inc := inc_takesValue s.wb w v
  have dec := dec_takesValue s.wb w v
  have hpos : 0 < 2 ^ (w * s.wb) := Nat.two_pow_pos _
  refine ⟨⟨?_, ?_⟩, fun hones => ?_, fun hzero => ?_, fun k => ?_, ?_, ?_⟩
  · exact succ_mod_pred_mod hv ▸ inc.bothLeave (dec_takesValue _ w _) h
  · exact pred_mod_succ_mod hv ▸ dec.bothLeave (inc_takesValue _ w _) h
  · rw [show v + 1 = 2 ^ (w * s.wb) by omega, Nat.mod_self] at inc
    exact inc.leaves h
  · rw [hzero, Nat.zero_add, Nat.mod_eq_of_lt (Nat.sub_lt hpos Nat.one_pos)] at dec
    exact dec.leaves (hzero ▸ h)
  · rw [Nat.add_mod_mod]
    exact h.execTimes_inc k
  · have hones : val s.wb (List.replicate w (typeMax s.wb)) = 2 ^ (w * s.wb) - 1 := by
      rw [Nat.mul_comm, ← val_allOnes, Nat.add_sub_cancel]
    exact hones ▸ (inc_scans hw).wraps_iff h (Nat.le_refl _)
  · exact val_zeros s.wb w ▸ (dec_scans hw).wraps_iff h (Nat.zero_le _)

end Sys2Proof.Machine
end

section
/-!
The bit string (R121): its N characters, each a bit of the buffer, and the value they spell; and the tables of codes
(R120, R141). Settles O30 and O46.
-/

namespace Sys2Proof.Machine

/-! ## Codes (O46) -/

/-- Settles O46: each code is the one its definition takes from the table. -/
theorem codesAreTheTables : Obligations.CodesAreTheTables :=
  ⟨rfl, rfl, rfl, rfl, rfl, rfl, rfl, rfl, rfl⟩

/-! ## Characters -/

theorem chr_eq_zero_or_one (b : Bool) : chr b = 0x30#8 ∨ chr b = 0x31#8 := by
  cases b with
  | false => exact .inl rfl
  | true => exact .inr rfl

theorem chr_eq_chr_true_iff (b : Bool) : chr b = chr true ↔ b = true := by cases b <;> decide

theorem getElem?_bitString {wb : Nat} {ws : List Nat} {j : Nat} (hj : j < ws.length * wb) :
    (bitString wb ws)[j]? = some (chr (bitAt wb ws j)) := by
  simp [bitString, hj]

/-! ## Reading a binary literal (O30) -/

/-- A further digit doubles what was read and adds itself. -/
theorem readBinary_append_chr (cs : List Char8) (b : Bool) :
    readBinary (cs ++ [chr b]) = 2 * readBinary cs + b.toNat := by
  simp only [readBinary, List.foldl_append, List.foldl_cons, List.foldl_nil, chr_eq_chr_true_iff, Bool.toNat,
    Bool.cond_eq_ite]

/-- The low `n` bits of `v` as text, the most significant first. -/
def binaryText (v n : Nat) : List Char8 := (List.range n).map fun j => chr (v.testBit (n - 1 - j))

/-- The last character is bit 0, and those before it are the text of `v / 2`. -/
theorem binaryText_succ (v n : Nat) : binaryText v (n + 1) = binaryText (v / 2) n ++ [chr (v.testBit 0)] := by
  have hbit : ∀ j ∈ List.range n, chr (v.testBit (n - j)) = chr ((v / 2).testBit (n - 1 - j)) := by
    intro j hj
    have hlt : j < n := List.mem_range.1 hj
    rw [show n - j = n - 1 - j + 1 by omega, Nat.testBit_add_one]
  simp only [binaryText, List.range_succ, List.map_append, List.map_cons, List.map_nil, Nat.add_sub_cancel,
    Nat.sub_self, List.map_congr_left hbit]

theorem readBinary_binaryText (v n : Nat) : readBinary (binaryText v n) = v % 2 ^ n := by
  induction n generalizing v with
  | zero => simp [binaryText, readBinary, Nat.mod_one]
  | succ n ih =>
    rw [binaryText_succ, readBinary_append_chr, ih, Nat.toNat_testBit, Nat.pow_zero, Nat.div_one, Nat.pow_succ',
      Nat.mod_mul, Nat.add_comm]

/-- The bit string spells the value of its words, because position j is bit N − 1 − j of the value (R42). -/
theorem bitString_eq_binaryText {wb : Nat} {ws : List Nat} (hwb : 1 ≤ wb) (hfit : WordsFit wb ws) :
    bitString wb ws = binaryText (val wb ws) (ws.length * wb) :=
  List.map_congr_left fun _ hj => congrArg chr (bitAt_eq_testBit hwb hfit (List.mem_range.1 hj))

theorem readBinary_bitString {wb : Nat} {ws : List Nat} (hwb : 1 ≤ wb) (hfit : WordsFit wb ws) :
    readBinary (bitString wb ws) = val wb ws := by
  rw [bitString_eq_binaryText hwb hfit, readBinary_binaryText, Nat.mul_comm, Nat.mod_eq_of_lt (val_lt hfit)]

/-- Settles O30: each character by the position mapping (R42), and the value by induction on the number of digits. -/
theorem bitStringReadsBackAsTheValue : Obligations.BitStringReadsBackAsTheValue := by
  intro wb ws hwb hfit
  refine ⟨length_bitString wb ws, fun j hj => ?_, fun c hc => ?_, readBinary_bitString hwb hfit⟩
  · obtain ⟨x, hx, hbit⟩ := bitAt_eq_testBit_word hj
    exact ⟨x, hx, hbit ▸ getElem?_bitString hj⟩
  · obtain ⟨j, -, rfl⟩ := List.mem_map.1 hc
    exact chr_eq_zero_or_one _

end Sys2Proof.Machine
end

section
/-!
FMTS and FMTB: what they hand to the sink (R122) or leave in Txt (R124), and that it is the same bit string (R123).
Settles O12, O27, O28 and O29.
-/

namespace Sys2Proof.Machine

/-! ## Too small a text destination (O12) -/

/-- Settles O12: the check of TCAP comes right after the length check, and an error is the command's whole effect. -/
theorem tooSmallTextChangesNothing : Obligations.TooSmallTextChangesNothing := by
  intro w tcap s hw htcap
  exact exec_of_raises (.fmtb (badLength_eq_false.2 hw) (badTcap_eq_true.2 htcap))

/-! ## FMTS (O27) -/

theorem exec_fmts {s : State} {w : Nat} {ws : List Nat} (hw : validLength s w) (hlen : ws.length = w)
    (hws : s.storage.buf.Agrees ws 0 w) :
    exec (.fmts w) s =
      .next ((s.sinkPut (streamText s.wb ws)).respond (Response.success (bitWidth s.wb w) false)) :=
  exec_of_performs (.fmts (badLength_eq_false.2 hw) (hws.readAll hw.le_cap hlen))

/-- Handing characters to the sink, and answering, changes nothing else (R28, R49). -/
theorem sinkPut_onlySink (s : State) (cs : List Char8) (r : Response) : OnlySink cs s ((s.sinkPut cs).respond r) := by
  rw [OnlySink, respond_storage, sinkPut_storage]
  exact ⟨sameOutside_setStorage s _ r, rfl, rfl, rfl, rfl⟩

/-- Settles O27: the words read are those listed, so the sink receives their `streamText`. -/
theorem fmtsStreamsTheBitString : Obligations.FmtsStreamsTheBitString := by
  intro s w ws hw hlen hws
  have honly := sinkPut_onlySink s (streamText s.wb ws) (Response.success (bitWidth s.wb w) false)
  exact ⟨_, exec_fmts hw hlen hws, ⟨rfl, rfl⟩, hlen ▸ honly⟩

/-! ## FMTB (O28) -/

theorem writeTxtRun_txtStarts {tcap : Nat} {x x1 : List Host.Cell} {cs : List Char8}
    (h : writeTxtRun tcap x 0 cs = .ok x1) : TxtStarts x1 cs := by
  intro j hj
  refine ⟨cs[j], List.getElem?_eq_getElem hj, ?_⟩
  rw [writeTxtRun_spec h, if_pos (by omega), Nat.sub_zero, List.getElem?_eq_getElem hj]

/-- Writing the first characters of Txt, and answering, changes nothing else (R50). -/
theorem setTxt_onlyChars {s : State} {tcap : Nat} {x : List Host.Cell} {cs : List Char8} (r : Response)
    (h : writeTxtRun tcap s.storage.txt 0 cs = .ok x) : OnlyChars cs.length s ((s.setTxt x).respond r) := by
  rw [OnlyChars, respond_storage, setTxt_storage]
  exact ⟨sameOutside_setStorage s _ r, rfl, rfl, rfl, fun _ hj => writeTxtRun_frame h hj⟩

theorem exec_fmtb {s : State} {w tcap : Nat} {ws : List Nat} {x : List Host.Cell} (hw : validLength s w)
    (htcap : w * s.wb + 1 ≤ tcap) (hlen : ws.length = w)
    (hdisjoint : ∀ p ∈ s.storage.shared, ¬ (p.1 < tcap ∧ p.2 < w)) (hws : s.storage.buf.Agrees ws 0 w)
    (hx : writeTxtRun tcap s.storage.txt 0 (bufferText s.wb ws) = .ok x) :
    exec (.fmtb w tcap) s = .next ((s.setTxt x).respond (Response.success (bitWidth s.wb w) false)) := by
  have hroom : badTcap s.wb w tcap = false := badTcap_eq_false.2 (by exact_mod_cast htcap)
  have hnone : s.storage.overlaps w tcap = false := by
    rw [Bool.eq_false_iff, Ne, Storage.overlaps_iff]
    exact fun ⟨p, hp, hshare⟩ => hdisjoint p hp hshare
  exact exec_of_performs (.fmtb (badLength_eq_false.2 hw) hroom hnone (hws.readAll hw.le_cap hlen) hx)

/-- Settles O28: TCAP leaves room for the N + 1 characters of the listed words' `bufferText`, so they are written from
index 0 on. -/
theorem fmtbWritesTheTerminatedBitString : Obligations.FmtbWritesTheTerminatedBitString := by
  intro s w tcap ws hw htcap hlen hdisjoint hws
  have htext : (bufferText s.wb ws).length = w * s.wb + 1 := hlen ▸ length_bufferText s.wb ws
  obtain ⟨x, hx⟩ : ∃ x, writeTxtRun tcap s.storage.txt 0 (bufferText s.wb ws) = .ok x :=
    writeTxtRun_of_lt (by omega)
  refine ⟨_, exec_fmtb hw htcap hlen hdisjoint hws hx, ⟨rfl, rfl⟩, ?_, htext ▸ setTxt_onlyChars _ hx⟩
  rw [respond_storage, setTxt_storage]
  exact hlen ▸ writeTxtRun_txtStarts hx

/-! ## The two presentations (O29) -/

theorem getElem?_streamText {wb : Nat} {ws : List Nat} {j : Nat} (hj : j < ws.length * wb) :
    (streamText wb ws)[j]? = (bitString wb ws)[j]? :=
  List.getElem?_append_left (by rwa [length_bitString])

theorem getElem?_bufferText {wb : Nat} {ws : List Nat} {j : Nat} (hj : j < ws.length * wb) :
    (bufferText wb ws)[j]? = (bitString wb ws)[j]? :=
  List.getElem?_append_left (by rwa [length_bitString])

section
variable {s t : State} {w : Int} {ws : List Nat}

/-- What FMTS handed to the sink where it succeeded, by the words Buf `[0, W)` hold. -/
theorem sink_of_fmts_succeeded (hlen : ws.length = w.toNat) (hws : s.storage.buf.Agrees ws 0 w.toNat)
    (h : exec (.fmts w) s = .next t) (hok : t.hasStatus .ok) :
    t.storage.sink = s.storage.sink ++ streamText s.wb ws := by
  obtain ⟨st, r, hp, rfl⟩ := exec_succeeded h ((succeeded_iff t).2 hok)
  have hread := hws.readAll hp.toNat_w_le hlen
  cases hp with
  | fmts _ hread' => rw [respond_storage, storage_setStorage, Except.ok.inj (hread.symm.trans hread')]

/-- What FMTB wrote to Txt where it succeeded, by the words Buf `[0, W)` hold. -/
theorem txt_of_fmtb_succeeded {tcap : Int} (hlen : ws.length = w.toNat) (hws : s.storage.buf.Agrees ws 0 w.toNat)
    (h : exec (.fmtb w tcap) s = .next t) (hok : t.hasStatus .ok) :
    TxtStarts t.storage.txt (bufferText s.wb ws) := by
  obtain ⟨st, r, hp, rfl⟩ := exec_succeeded h ((succeeded_iff t).2 hok)
  have hread := hws.readAll hp.toNat_w_le hlen
  cases hp with
  | fmtb _ _ _ hread' hx =>
    rw [respond_storage, storage_setStorage, Except.ok.inj (hread.symm.trans hread')]
    exact writeTxtRun_txtStarts hx
end

/-- Settles O29: both commands read the listed words, and `streamText` and `bufferText` begin with their bit string. -/
theorem bothPresentationsGiveTheSameCharacters : Obligations.BothPresentationsGiveTheSameCharacters := by
  intro s s' t t' w tcap ws hwb hbuf hlen hws hfmts hok hfmtb hok' j hj
  have hsink := sink_of_fmts_succeeded hlen hws hfmts hok
  have htxt := txt_of_fmtb_succeeded hlen (hbuf ▸ hws) hfmtb hok'
  rw [← hlen] at hj
  rw [← hwb] at htxt
  obtain ⟨c, hc, hread⟩ := htxt j (by rw [length_bufferText]; omega)
  rw [getElem?_bufferText hj] at hc
  exact ⟨c, by rw [hsink, List.drop_left, getElem?_streamText hj, hc], hread, hc⟩

end Sys2Proof.Machine
end

section
/-!
Errors (60_exceptions.md): a bad length (R145), that R142's order fixes the status, and that an error writes nothing and
does not depend on what any storage holds (R140). Settles O10, O13 and O14.
-/

namespace Sys2Proof.Machine

/-! ## A bad length (O10) -/

/-- Settles O10: every command checks W first, and an error is the command's whole effect. -/
theorem invalidLengthChangesNothing : Obligations.InvalidLengthChangesNothing :=
  fun _ _ hw => exec_of_raises (.length (badLength_eq_true.2 hw))

/-! ## The order of the checks (O14) -/

section
variable {s : State} {c : Command} {i : Instr} {e : Status}

theorem decode_op (h : decode c = .ok i) : c.op = i.op := by
  rcases decode_cases c with ⟨-, hd⟩ | ⟨hop, hd⟩ | ⟨hop, hd⟩ | ⟨hop, hd⟩ | ⟨hop, hd⟩ | ⟨hop, hd⟩ | ⟨hop, hd⟩ <;>
    rw [hd] at h <;> cases h <;> exact hop

theorem not_reserved_of_decode (h : decode c = .ok i) : ¬ (c.op = 0#8 ∨ 7 ≤ c.op.toNat) := by
  intro hop
  cases (decode_reserved hop).symm.trans h

theorem reserved_of_decode_error {d : DecodeError} (h : decode c = .error d) : c.op = 0#8 ∨ 7 ≤ c.op.toNat := by
  rcases decode_cases c with ⟨hop, -⟩ | ⟨-, hd⟩ | ⟨-, hd⟩ | ⟨-, hd⟩ | ⟨-, hd⟩ | ⟨-, hd⟩ | ⟨-, hd⟩
  · exact hop
  all_goals cases hd.symm.trans h

theorem firstError_of_reserved (h : c.op = 0#8 ∨ 7 ≤ c.op.toNat) : firstError s c = some .invalidCommand :=
  if_pos h

theorem firstError_of_badLength (hd : decode c = .ok i) (hl : badLength s.storage.buf.cap c.w = true) :
    firstError s c = some .invalidLength := by
  rw [firstError, if_neg (not_reserved_of_decode hd), if_pos (badLength_eq_true.1 hl)]

/-- Past OP and W, R142 leaves the checks of its item 3. -/
theorem firstError_of_goodLength (hd : decode c = .ok i) (hl : badLength s.storage.buf.cap c.w = false) :
    firstError s c =
      if (c.op = 1#8 ∨ c.op = 2#8) ∧ c.shift < 0 then some .invalidShiftAmount
      else if c.op = 6#8 ∧ c.tcap < c.w * s.wb + 1 then some .bufferTooSmall
      else none := by
  have hw : ¬ (c.w ≤ 0 ∨ (s.storage.buf.cap : Int) < c.w) := by rw [← badLength_eq_true, hl]; decide
  rw [firstError, if_neg (not_reserved_of_decode hd), if_neg hw]

/-- An error of the command's own meaning is the one R142's order names; so it has no other. -/
theorem firstError_of_raises (hd : decode c = .ok i) (h : Raises s.wb s.storage.buf.cap i e) :
    firstError s c = some e := by
  cases h with
  | length hl => exact firstError_of_badLength hd (decode_w hd ▸ hl)
  | shl hl hs =>
    have hop : c.op = 1#8 := decode_op hd
    cases (decode_shl hop).symm.trans hd
    rw [firstError_of_goodLength hd hl, if_pos ⟨.inl hop, badShift_eq_true.1 hs⟩]
  | shr hl hs =>
    have hop : c.op = 2#8 := decode_op hd
    cases (decode_shr hop).symm.trans hd
    rw [firstError_of_goodLength hd hl, if_pos ⟨.inr hop, badShift_eq_true.1 hs⟩]
  | fmtb hl ht =>
    have hop : c.op = 6#8 := decode_op hd
    cases (decode_fmtb hop).symm.trans hd
    have hno : ¬ ((c.op = 1#8 ∨ c.op = 2#8) ∧ c.shift < 0) := by simp [hop]
    rw [firstError_of_goodLength hd hl, if_neg hno, if_pos ⟨hop, badTcap_eq_true.1 ht⟩]

theorem raises_of_firstError (hd : decode c = .ok i) (h : firstError s c = some e) :
    Raises s.wb s.storage.buf.cap i e := by
  cases hl : badLength s.storage.buf.cap c.w with
  | true =>
    cases (firstError_of_badLength hd hl).symm.trans h
    exact .length (decode_w hd ▸ hl)
  | false =>
    rw [firstError_of_goodLength hd hl] at h
    split at h
    · next hshift =>
      obtain ⟨hop | hop, hs⟩ := hshift <;> cases h
      · cases (decode_shl hop).symm.trans hd
        exact .shl hl (badShift_eq_true.2 hs)
      · cases (decode_shr hop).symm.trans hd
        exact .shr hl (badShift_eq_true.2 hs)
    · split at h
      · next htcap =>
        obtain ⟨hop, ht⟩ := htcap
        cases h
        cases (decode_fmtb hop).symm.trans hd
        exact .fmtb hl (badTcap_eq_true.2 ht)
      · cases h

/-- R142 reads WB and CAP of the state, and no contents. -/
theorem firstError_congr {s' : State} (hwb : s.wb = s'.wb) (hcap : s.storage.buf.cap = s'.storage.buf.cap) :
    firstError s c = firstError s' c := by
  rw [firstError, firstError, hwb, hcap]

/-- A command that has no error answers OK if it completes. -/
theorem hasStatus_ok_of_no_error {t : State} (hno : ∀ e, ¬ Raises s.wb s.storage.buf.cap i e) (h : exec i s = .next t) :
    t.hasStatus .ok := by
  rcases exec_next_iff.1 h with ⟨e, he, -⟩ | ⟨st, r, hp, rfl⟩
  · exact absurd he (hno e)
  · exact ⟨r, rfl, hp.status_ok⟩

variable {q : Issue}

theorem transact_of_firstError (hq : q.disciplined) (h : firstError s q.cmd = some e) :
    transact q s = .next (s.raise e) := by
  cases hd : decode q.cmd with
  | error d =>
    have hop := reserved_of_decode_error hd
    cases (firstError_of_reserved hop).symm.trans h
    rw [transact_of_reserved hop, hq.2]
    rfl
  | ok i => rw [transact_of_disciplined hq hd, exec_of_raises (raises_of_firstError hd h)]

theorem transact_of_no_error (hq : q.disciplined) (h : firstError s q.cmd = none) :
    ∃ i, decode q.cmd = .ok i ∧ transact q s = exec i s ∧ ∀ t, exec i s = .next t → t.hasStatus .ok := by
  cases hd : decode q.cmd with
  | error d => cases (firstError_of_reserved (reserved_of_decode_error hd)).symm.trans h
  | ok i =>
    refine ⟨i, rfl, transact_of_disciplined hq hd, fun t => hasStatus_ok_of_no_error fun e he => ?_⟩
    cases (firstError_of_raises hd he).symm.trans h

end

/-- Settles O14: `firstError` names the error that the command's meaning raises, and a meaning that raises none answers
OK. -/
theorem checkOrderFixesTheStatus : Obligations.CheckOrderFixesTheStatus := by
  intro q s hq
  split
  · next e he => exact transact_of_firstError hq he
  · next he => exact transact_of_no_error hq he

/-! ## An error writes nothing (O13) -/

section
variable {q : Issue} {s t : State}

/-- A transaction that reset does not interrupt and that answers with an error has that response as its whole effect
(R140, R144). -/
theorem transact_error_eq_respond {r : Response} (hq : q.resetDuring = false) (h : transact q s = .next t)
    (hr : t.response = some r) (hne : r.status ≠ .ok) : t = s.respond r := by
  have hcases := transact_next h
  simp only [hq, Bool.false_eq_true, if_false] at hcases
  rcases hcases with ⟨-, rfl⟩ | ⟨i, -, -, u, hu, rfl⟩
  · cases hr
    rfl
  · rcases exec_next_iff.1 hu with ⟨e, -, rfl⟩ | ⟨st, r', hp, rfl⟩ <;> cases hr
    · rfl
    · exact absurd hp.status_ok hne

/-- A disciplined command answers with an error exactly where R142's order names that error. -/
theorem transact_hasStatus_iff_firstError {e : Status} (hq : q.disciplined) (hne : e ≠ .ok) :
    (∃ t, transact q s = .next t ∧ t.hasStatus e) ↔ firstError s q.cmd = some e := by
  constructor
  · rintro ⟨t, ht, r, hr, rfl⟩
    cases he : firstError s q.cmd with
    | some e =>
      cases ht.symm.trans (transact_of_firstError hq he)
      cases hr
      rfl
    | none =>
      obtain ⟨i, -, hexec, hok⟩ := transact_of_no_error hq he
      obtain ⟨r', hr', hstatus⟩ := hok t (hexec ▸ ht)
      cases hr.symm.trans hr'
      exact absurd hstatus hne
  · exact fun he => ⟨_, transact_of_firstError hq he, _, rfl, rfl⟩

end

/-- Settles O13: an error's response is its whole effect, and `firstError`, which decides it, reads WB and CAP alone. -/
theorem errorsWriteNothing : Obligations.ErrorsWriteNothing := by
  refine ⟨fun q s t r hq h hr hne => transact_error_eq_respond hq h hr hne, fun q s s' e hq hne hwb hcap => ?_⟩
  rw [transact_hasStatus_iff_firstError hq hne, transact_hasStatus_iff_firstError hq hne, firstError_congr hwb hcap]
  exact id

end Sys2Proof.Machine
end

section
/-!
How a command stops: each of the six raises an error, performs its operation, faults on a word the caller never wrote
(R171), or is an FMTB that is refused (R58), so it always completes otherwise (R177). Settles O37 and O38.
-/

namespace Sys2Proof.Machine

/-! ## What a command that faults has met -/

/-- The command is valid on words of `wb` bits and the storage `st`, and a read of its operation answers this fault. -/
inductive Faults (wb : Nat) (st : Storage) : Instr → Fault → Prop
  | shl {w shift : Int} {f : Fault} (hl : badLength st.buf.cap w = false) (hs : badShift shift = false)
      (h : shiftLeft wb w.toNat shift.toNat st.buf = .error f) : Faults wb st (.shl w shift) f
  | shr {w shift : Int} {f : Fault} (hl : badLength st.buf.cap w = false) (hs : badShift shift = false)
      (h : shiftRight wb w.toNat shift.toNat st.buf = .error f) : Faults wb st (.shr w shift) f
  | inc {w : Int} {f : Fault} (hl : badLength st.buf.cap w = false)
      (h : carryScan wb w.toNat st.buf = .error f) : Faults wb st (.inc w) f
  | dec {w : Int} {f : Fault} (hl : badLength st.buf.cap w = false)
      (h : borrowScan wb w.toNat st.buf = .error f) : Faults wb st (.dec w) f
  | fmts {w : Int} {f : Fault} (hl : badLength st.buf.cap w = false)
      (h : st.buf.readRun w.toNat 0 w.toNat = .error f) : Faults wb st (.fmts w) f
  | fmtb {w tcap : Int} {f : Fault} (hl : badLength st.buf.cap w = false) (ht : badTcap wb w tcap = false)
      (ho : st.overlaps w.toNat tcap.toNat = false) (h : st.buf.readRun w.toNat 0 w.toNat = .error f) :
      Faults wb st (.fmtb w tcap) f

theorem exec_of_faults {i : Instr} {s : State} {f : Fault} (h : Faults s.wb s.storage i f) : exec i s = .fault f := by
  cases h with
  | shl hl hs h => rw [execShl_valid hl hs, h]; rfl
  | shr hl hs h => rw [execShr_valid hl hs, h]; rfl
  | inc hl h => rw [execInc_valid hl, h]; rfl
  | dec hl h => rw [execDec_valid hl, h]; rfl
  | fmts hl h => simp [exec, execFmts, hl, h]
  | fmtb hl ht ho h => simp [exec, execFmtb, hl, ht, ho, h]

section
variable {wb : Nat} {st : Storage} {i : Instr} {f : Fault}

theorem Faults.length_ok (h : Faults wb st i f) : badLength st.buf.cap i.w = false := by
  cases h <;> assumption

theorem Faults.toNat_w_le (h : Faults wb st i f) : i.w.toNat ≤ st.buf.cap :=
  Int.toNat_le.2 (badLength_eq_false.1 h.length_ok).2

theorem Buf.readAll_error {b : Buf} {w : Nat} (hc : w ≤ b.cap) (h : b.readRun w 0 w = .error f) :
    f = .unwrittenWord ∧ ∃ k, k < w ∧ b.words.read k = none := by
  obtain ⟨hf, k, hk, hread⟩ := Buf.readRun_error (by omega) (by omega) h
  exact ⟨hf, k, hk, by rwa [Nat.zero_add] at hread⟩

theorem propagateAll_error {b : Buf} {w boundary wrapped : Nat} {absorb : Nat → Nat} (hc : w ≤ b.cap)
    (h : Buf.propagate w boundary wrapped absorb w b = .error f) :
    f = .unwrittenWord ∧ ∃ k, k < w ∧ b.words.read k = none := by
  obtain ⟨hf, k, hk, hread, -⟩ := propagate_error (Nat.le_refl w) hc h
  exact ⟨hf, k, hk, hread⟩

/-- The only fault is that of an unwritten word in the window (R171); no access is out of the range R10 states. -/
theorem Faults.unwritten (h : Faults wb st i f) :
    f = .unwrittenWord ∧ ∃ k, k < i.w.toNat ∧ st.buf.words.read k = none := by
  have hc := h.toNat_w_le
  cases h with
  | shl _ _ h => exact shiftLeft_error hc h
  | shr _ _ h => exact shiftRight_error hc h
  | inc _ h => exact propagateAll_error hc h
  | dec _ h => exact propagateAll_error hc h
  | fmts _ h => exact Buf.readAll_error hc h
  | fmtb _ _ _ h => exact Buf.readAll_error hc h

end

/-! ## Every outcome (O37) -/

/-- TCAP ≥ N + 1 leaves room for all that FMTB writes (R124). -/
theorem writeTxtRun_bufferText {wb : Nat} {b : Buf} {w tcap : Int} {ws : List Nat} (hw : 0 < w)
    (ht : badTcap wb w tcap = false) (h : b.readRun w.toNat 0 w.toNat = .ok ws) (x : List Host.Cell) :
    ∃ x', writeTxtRun tcap.toNat x 0 (bufferText wb ws) = .ok x' := by
  have hroom := badTcap_eq_false.1 ht
  have hlen := length_bufferText_of_readRun (wb := wb) hw h
  exact writeTxtRun_of_lt (by omega)

/-- On every storage a command raises its error, performs its operation, faults, or is an FMTB whose Txt overlaps. -/
theorem outcome_cases (wb : Nat) (st : Storage) (i : Instr) :
    (∃ e, Raises wb st.buf.cap i e) ∨ (∃ st' r, Performs wb st i st' r) ∨ (∃ f, Faults wb st i f) ∨
    ∃ w tcap, i = .fmtb w tcap ∧ badLength st.buf.cap w = false ∧ badTcap wb w tcap = false ∧
      st.overlaps w.toNat tcap.toNat = true := by
  cases hl : badLength st.buf.cap i.w with
  | true => exact .inl ⟨_, .length hl⟩
  | false =>
    cases i with
    | shl w shift =>
      cases hs : badShift shift with
      | true => exact .inl ⟨_, .shl hl hs⟩
      | false =>
        cases h : shiftLeft wb w.toNat shift.toNat st.buf with
        | ok b => exact .inr (.inl ⟨_, _, .shl hl hs h⟩)
        | error f => exact .inr (.inr (.inl ⟨f, .shl hl hs h⟩))
    | shr w shift =>
      cases hs : badShift shift with
      | true => exact .inl ⟨_, .shr hl hs⟩
      | false =>
        cases h : shiftRight wb w.toNat shift.toNat st.buf with
        | ok b => exact .inr (.inl ⟨_, _, .shr hl hs h⟩)
        | error f => exact .inr (.inr (.inl ⟨f, .shr hl hs h⟩))
    | inc w =>
      cases h : carryScan wb w.toNat st.buf with
      | ok r => exact .inr (.inl ⟨_, _, .inc hl h⟩)
      | error f => exact .inr (.inr (.inl ⟨f, .inc hl h⟩))
    | dec w =>
      cases h : borrowScan wb w.toNat st.buf with
      | ok r => exact .inr (.inl ⟨_, _, .dec hl h⟩)
      | error f => exact .inr (.inr (.inl ⟨f, .dec hl h⟩))
    | fmts w =>
      cases h : st.buf.readRun w.toNat 0 w.toNat with
      | ok ws => exact .inr (.inl ⟨_, _, .fmts hl h⟩)
      | error f => exact .inr (.inr (.inl ⟨f, .fmts hl h⟩))
    | fmtb w tcap =>
      cases ht : badTcap wb w tcap with
      | true => exact .inl ⟨_, .fmtb hl ht⟩
      | false =>
        cases ho : st.overlaps w.toNat tcap.toNat with
        | true => exact .inr (.inr (.inr ⟨w, tcap, rfl, hl, ht, ho⟩))
        | false =>
          cases h : st.buf.readRun w.toNat 0 w.toNat with
          | error f => exact .inr (.inr (.inl ⟨f, .fmtb hl ht ho h⟩))
          | ok ws =>
            obtain ⟨x, hx⟩ := writeTxtRun_bufferText (badLength_eq_false.1 hl).1 ht h st.txt
            exact .inr (.inl ⟨_, _, .fmtb hl ht ho h hx⟩)

/-- Settles O37: of the four cases, an error and an operation complete, a fault is that of an unwritten word, and the
refused FMTB has an overlap. -/
theorem everyOtherCommandCompletes : Obligations.EveryOtherCommandCompletes := by
  intro i s
  rcases outcome_cases s.wb s.storage i with ⟨e, he⟩ | ⟨st, r, hp⟩ | ⟨f, hf⟩ | ⟨w, tcap, rfl, hl, ht, ho⟩
  · exact .inl ⟨_, exec_of_raises he⟩
  · exact .inl ⟨_, exec_of_performs hp⟩
  · obtain ⟨rfl, k, hk, hread⟩ := hf.unwritten
    exact .inr (.inl ⟨exec_of_faults hf, k, Int.lt_toNat.1 hk, Nat.lt_of_lt_of_le hk hf.toNat_w_le, hread⟩)
  · obtain ⟨p, hp, hchar, hword⟩ := Storage.overlaps_iff.1 ho
    exact .inr (.inr ⟨execFmtb_refused_iff.2 ⟨hl, ht, ho⟩, w, tcap, rfl, p, hp, Int.lt_toNat.1 hchar,
      Int.lt_toNat.1 hword⟩)

/-! ## The words each command reads (O38) -/

/-- A shift by more than 0 that moves no whole word has a sub-word part. -/
theorem shift2_ne_zero {wb shift : Nat} (hpos : 0 < shift) (h0 : shift1 wb shift = 0) : shift2 wb shift ≠ 0 := by
  have hparts := shift_parts wb shift
  rw [h0, Nat.mul_zero] at hparts
  omega

section
variable {wb w k : Nat} {b : Buf} (hc : w ≤ b.cap) (hr : b.words.read k = none)
include hc hr

theorem wholeWordRight_unwritten {s1 : Nat} (h0 : s1 ≠ 0) (hs : k + s1 < w) :
    wholeWordRight w s1 b = .error .unwrittenWord := by
  have hread : b.readRun w 0 (w - s1) = .error .unwrittenWord :=
    Buf.readRun_unwritten (j := k) (by omega) (by omega) (by omega) (by rwa [Nat.zero_add])
  rw [wholeWordRight, if_neg h0, hread]

variable (hk : k < w)
include hk

theorem Buf.readAll_unwritten : b.readRun w 0 w = .error .unwrittenWord :=
  Buf.readRun_unwritten (j := k) (by omega) (by omega) hk (by rwa [Nat.zero_add])

theorem wholeWordLeft_unwritten {s1 : Nat} (h0 : s1 ≠ 0) (hs : s1 ≤ k) :
    wholeWordLeft w s1 b = .error .unwrittenWord := by
  have hread : b.readRun w s1 (w - s1) = .error .unwrittenWord :=
    Buf.readRun_unwritten (j := k - s1) (by omega) (by omega) (by omega) (by rwa [Nat.add_sub_cancel' hs])
  rw [wholeWordLeft, if_neg h0, hread]

theorem subWordPass_unwritten (pass : List Nat → List Nat) {s2 : Nat} (h0 : s2 ≠ 0) :
    subWordPass pass w s2 b = .error .unwrittenWord := by
  rw [subWordPass, if_neg h0, Buf.readAll_unwritten hc hr hk]

theorem shiftLeft_unwritten {shift : Nat} (hpos : 0 < shift) (hs : shift1 wb shift ≤ k) :
    shiftLeft wb w shift b = .error .unwrittenWord := by
  unfold shiftLeft
  by_cases h0 : shift1 wb shift = 0
  · have hwhole : wholeWordLeft w (shift1 wb shift) b = .ok b := if_pos h0
    rw [hwhole]
    exact subWordPass_unwritten hc hr hk _ (shift2_ne_zero hpos h0)
  · rw [wholeWordLeft_unwritten hc hr hk h0 hs]

theorem shiftRight_unwritten {shift : Nat} (hpos : 0 < shift) (hs : k + shift1 wb shift < w) :
    shiftRight wb w shift b = .error .unwrittenWord := by
  unfold shiftRight
  by_cases h0 : shift1 wb shift = 0
  · have hwhole : wholeWordRight w (shift1 wb shift) b = .ok b := if_pos h0
    rw [hwhole]
    exact subWordPass_unwritten hc hr hk _ (shift2_ne_zero hpos h0)
  · rw [wholeWordRight_unwritten hc hr h0 hs]

end

theorem badTcap_natCast {wb w tcap : Nat} (h : w * wb + 1 ≤ tcap) : badTcap wb w tcap = false :=
  badTcap_eq_false.2 (by exact_mod_cast h)

theorem overlaps_eq_false {st : Storage} {w tcap : Nat} (h : ∀ p ∈ st.shared, ¬ (p.1 < tcap ∧ p.2 < w)) :
    st.overlaps w tcap = false := by
  rw [Bool.eq_false_iff, Ne, Storage.overlaps_iff]
  exact fun ⟨p, hp, hshare⟩ => h p hp hshare

/-- Settles O38: word `k` is one of those the command's pass, scan or run of reads comes to. -/
theorem readOfAnUnwrittenWordFaults : Obligations.ReadOfAnUnwrittenWordFaults := by
  intro s w k hw hk hr
  have hl := badLength_eq_false.2 hw
  have hc := hw.le_cap
  refine ⟨fun shift hpos _ hs => ?_, fun shift hpos _ hs => ?_, fun hall => ?_, fun hall => ?_, ?_,
    fun tcap htcap hdisjoint => ?_⟩
  · exact exec_of_faults (.shl hl (badShift_eq_false.2 (Int.natCast_nonneg shift))
      (shiftLeft_unwritten hc hr hk hpos hs))
  · exact exec_of_faults (.shr hl (badShift_eq_false.2 (Int.natCast_nonneg shift))
      (shiftRight_unwritten hc hr hk hpos hs))
  · exact exec_of_faults (.inc hl (propagate_unwritten (Nat.le_refl w) hc hk hr hall))
  · exact exec_of_faults (.dec hl (propagate_unwritten (Nat.le_refl w) hc hk hr hall))
  · exact exec_of_faults (.fmts hl (Buf.readAll_unwritten hc hr hk))
  · exact exec_of_faults (.fmtb hl (badTcap_natCast htcap) (overlaps_eq_false hdisjoint)
      (Buf.readAll_unwritten hc hr hk))

end Sys2Proof.Machine
end

section
/-!
An access of another agent to what a running command uses (R173, R174). Settles O40.
-/

namespace Sys2Proof.Machine

section
variable (st : Storage) {i : Instr}

theorem usedBy_word {k : Nat} (hk : (k : Int) < i.w) : st.usedBy i (.word k) = true := by
  simp [Storage.usedBy, usesWord, hk]

theorem usedBy_char {w tcap : Int} {j : Nat} (hj : (j : Int) < tcap) : st.usedBy (.fmtb w tcap) (.char j) = true := by
  simp [Storage.usedBy, usesChar, hj]

theorem usedBy_sink (w : Int) : st.usedBy (.fmts w) .sink = true := rfl
end

theorem raced_of_usedBy {s : State} {i : Instr} {touched : List (Nat × Location)} {l : Location}
    (hl : (s.active, l) ∈ touched) (hused : s.storage.usedBy i l = true) : s.raced i touched = true := by
  refine List.any_eq_true.2 ⟨_, hl, ?_⟩
  rw [hused, decide_eq_true rfl]
  rfl

theorem transact_of_raced {q : Issue} {s : State} {i : Instr} (hd : decode q.cmd = .ok i)
    (h : s.raced i q.touched = true) : transact q s = .fault .race := by
  simp only [transact, hd, if_pos h]

/-- Settles O40: each of the three locations is one the command uses, so the race check finds it. -/
theorem accessToUsedStorageRaces : Obligations.AccessToUsedStorageRaces := by
  intro s q rest i l hin hd hl hloc
  rw [step_issue hin]
  refine transact_of_raced hd (raced_of_usedBy hl ?_)
  rcases hloc with ⟨k, rfl, hk⟩ | ⟨j, w, tcap, rfl, rfl, hj⟩ | ⟨w, rfl, rfl⟩
  · exact usedBy_word _ hk
  · exact usedBy_char _ hj
  · exact usedBy_sink _ w

end Sys2Proof.Machine
end

section
/-!
Reset (R170, R32): between commands, during a command that would be an error, and during one that would have succeeded.
Settles O42, O43 and O44.
-/

namespace Sys2Proof.Machine

/-- An input is taken off the host's list, and no response is pending (R21). -/
theorem step_input {s : State} {inp : Input} {rest : List Input} (h : s.inputs = inp :: rest) :
    step s = takeInput inp (s.advance rest) := by
  rw [step, h]

/-! ## With no command in progress (O42) -/

/-- Settles O42: what is left of the step is that the input is taken. -/
theorem idleResetHasNoEffect : Obligations.IdleResetHasNoEffect :=
  fun _ _ hin => step_input hin

/-! ## During a command -/

section
variable {s u : State} {i : Instr} {q : Issue}

theorem transact_of_reset (htouched : q.touched = []) (hreset : q.resetDuring = true) (hd : decode q.cmd = .ok i) :
    transact q s = abandon i s := by
  simp [transact, hd, htouched, hreset, raced_nil]

theorem abandon_of_raises {e : Status} (h : Raises s.wb s.storage.buf.cap i e) : abandon i s = .next s := by
  simp [abandon, exec_of_raises h, State.succeeded, h.ne_ok]

theorem abandon_of_succeeded (h : exec i s = .next u) (hok : u.hasStatus .ok) :
    abandon i s = .next (unspecified i s u) := by
  simp [abandon, h, (succeeded_iff u).2 hok]

end

/-! ## During an error (O44) -/

/-- Settles O44: the transaction answers with an error exactly where R142's order names one, and then there is nothing
to abandon. -/
theorem resetDuringAnErrorChangesNothing : Obligations.ResetDuringAnErrorChangesNothing := by
  intro s u q rest e hin htouched hreset hne htransact hu
  rw [step_issue hin]
  have hdisciplined : Issue.disciplined { q with resetDuring := false } := ⟨htouched, rfl⟩
  have herror := (transact_hasStatus_iff_firstError hdisciplined hne).1 ⟨u, htransact, hu⟩
  cases hd : decode q.cmd with
  | error d => rw [transact_of_reserved (reserved_of_decode_error hd), if_pos hreset]
  | ok i => rw [transact_of_reset htouched hreset hd, abandon_of_raises (raises_of_firstError hd herror)]

/-! ## What is left of a command that would have succeeded (O43) -/

section
variable (i : Instr) (s u : State)

theorem unspecified_params : (unspecified i s u).params = s.params := by cases i <;> rfl
theorem unspecified_inputs : (unspecified i s u).inputs = s.inputs := by cases i <;> rfl
theorem unspecified_active : (unspecified i s u).active = s.active := by cases i <;> rfl

theorem unspecified_storageAt_of_ne {k : Nat} (hk : k ≠ s.active) :
    (unspecified i s u).storageAt k = s.storageAt k := by
  cases i <;> exact storageAt_setStorage_of_ne s _ hk

theorem unspecified_cap : (unspecified i s u).storage.buf.cap = s.storage.buf.cap := by
  cases i <;> simp [unspecified]

theorem unspecified_shared : (unspecified i s u).storage.shared = s.storage.shared := by
  cases i <;> simp [unspecified]

end

/-- In the storage `st1` that is left of `st` by a reset, where the whole command would have led to the sink `sink`, each
location the command may write holds some value of its range, and every other is as before (R170). -/
def LeavesUnspecified (wb : Nat) (sink : List Char8) (i : Instr) (st st1 : Storage) : Prop :=
  match i with
  | .shl w _ | .shr w _ | .inc w | .dec w =>
    st1.txt = st.txt ∧ st1.sink = st.sink ∧
      ∀ k : Nat, if (k : Int) < w then ∃ v, v ≤ typeMax wb ∧ st1.buf.words.read k = some v
        else st1.buf.words.read k = st.buf.words.read k
  | .fmts _ => st1.buf = st.buf ∧ st1.txt = st.txt ∧ ∃ n, st.sink.length ≤ n ∧ st1.sink = sink.take n
  | .fmtb w _ => st1.buf = st.buf ∧ st1.sink = st.sink ∧
    ∀ j : Nat, if (j : Int) ≤ w * wb then (Memory.read st1.txt j).isSome
      else Memory.read st1.txt j = Memory.read st.txt j

theorem drawWords_read (s : State) (w : Int) (k : Nat) :
    if (k : Int) < w then ∃ v, v ≤ typeMax s.wb ∧ (s.drawWords w.toNat).storage.buf.words.read k = some v
    else (s.drawWords w.toNat).storage.buf.words.read k = s.storage.buf.words.read k := by
  rw [drawWords_storage]
  split
  · next hk => exact ⟨_, trunc_le_typeMax _ _, by rw [Memory.read_fill, if_pos (Int.lt_toNat.2 hk)]⟩
  · next hk => rw [Memory.read_fill, if_neg (mt Int.lt_toNat.1 hk)]

theorem drawChars_read (s : State) {w : Int} (hw : 0 < w) (j : Nat) :
    if (j : Int) ≤ w * s.wb then (Memory.read (s.drawChars (bitWidth s.wb w.toNat)).storage.txt j).isSome
    else Memory.read (s.drawChars (bitWidth s.wb w.toNat)).storage.txt j = Memory.read s.storage.txt j := by
  have hN : (bitWidth s.wb w.toNat : Int) = w * s.wb := by
    rw [bitWidth, Nat.cast_mul, Int.toNat_of_nonneg (Int.le_of_lt hw)]
  rw [drawChars_storage]
  split
  · next hj => rw [Memory.read_fill, if_pos (by omega)]; rfl
  · next hj => rw [Memory.read_fill, if_neg (by omega)]

theorem unspecified_leaves {i : Instr} {s u : State} (h : exec i s = .next u) (hok : u.hasStatus .ok) :
    LeavesUnspecified s.wb u.storage.sink i s.storage (unspecified i s u).storage := by
  obtain ⟨st, r, hp, -⟩ := exec_succeeded h ((succeeded_iff u).2 hok)
  have hw : 0 < i.w := (badLength_eq_false.1 hp.length_ok).1
  cases i with
  | shl w _ | shr w _ | inc w | dec w =>
    exact ⟨by simp [unspecified], by simp [unspecified], drawWords_read s w⟩
  | fmts w =>
    rw [unspecified, drawSink_storage]
    exact ⟨rfl, rfl, _, Nat.le_add_right _ _, rfl⟩
  | fmtb w tcap => exact ⟨by simp [unspecified], by simp [unspecified], drawChars_read s hw⟩

/-- Settles O43: the command is abandoned, and `unspecified` changes nothing but what `LeavesUnspecified` says. -/
theorem resetAbandonsTheCommand : Obligations.ResetAbandonsTheCommand := by
  intro s u q rest i hin htouched hreset hd hexec hok
  have hleaves := unspecified_leaves hexec hok
  have hstep := step_issue hin
  rw [transact_of_reset htouched hreset hd, abandon_of_succeeded hexec hok] at hstep
  refine ⟨_, hstep, unspecified_response i _ u, unspecified_index i _ u, unspecified_params i _ u,
    unspecified_inputs i _ u, unspecified_active i _ u, fun k hk => unspecified_storageAt_of_ne i _ u hk,
    unspecified_cap i _ u, unspecified_shared i _ u, ?_⟩
  cases i <;> exact hleaves

end Sys2Proof.Machine
end

section
/-!
The host's own moves (R26, R27, R171). Settles O45.
-/

namespace Sys2Proof.Machine

theorem hostWriteWord_of_valid {k i v : Nat} {s : State} (hi : i < (s.storageAt k).buf.cap) (hv : v ≤ typeMax s.wb) :
    hostWriteWord k i v s = .next (s.setStorageAt k { s.storageAt k with
      buf := { (s.storageAt k).buf with words := (s.storageAt k).buf.words.write i v } }) :=
  if_pos ⟨hi, hv⟩

theorem hostWriteWord_refused {k i v : Nat} {s : State} (h : (s.storageAt k).buf.cap ≤ i ∨ typeMax s.wb < v) :
    hostWriteWord k i v s = .refused .noSuchHostMove :=
  if_neg (by omega)

theorem provideBuf_of_pos {k cap : Nat} {shared : List (Nat × Nat)} {s : State} (hcap : 1 ≤ cap) :
    provideBuf k cap shared s =
      .next (s.setStorageAt k { s.storageAt k with buf := { cap := cap, words := [] }, shared := shared }) :=
  if_neg (Nat.ne_of_gt hcap)

theorem provideBuf_zero (k : Nat) (shared : List (Nat × Nat)) (s : State) :
    provideBuf k 0 shared s = .refused .noSuchHostMove := rfl

/-- Settles O45: each move that is taken replaces storage `k` alone, by one that differs where the move says. -/
theorem callerWritesItsOwnStorage : Obligations.CallerWritesItsOwnStorage := by
  have others (s : State) (k : Nat) (st : Storage) :
      ∀ l, l ≠ k → (s.setStorageAt k st).storageAt l = s.storageAt l :=
    fun _ hl => storageAt_setStorageAt_of_ne s st hl
  refine ⟨fun s k i v rest hin hi hv => ?_, fun s k j c rest hin => ?_, fun s k cap shared rest hin hcap => ?_,
    fun s k i v rest hin hbad => ?_, fun s k shared rest hin => ?_⟩
  · refine ⟨_, (step_input hin).trans (hostWriteWord_of_valid hi hv), ?_⟩
    rw [storageAt_setStorageAt_same]
    exact ⟨Memory.read_write_same _ _ _, fun j hj => Memory.read_write_of_ne _ _ hj, rfl, rfl, rfl, rfl, others _ _ _⟩
  · refine ⟨_, step_input hin, ?_⟩
    rw [storageAt_setStorageAt_same]
    exact ⟨Memory.read_write_same _ _ _, fun m hm => Memory.read_write_of_ne _ _ hm, rfl, rfl, rfl, others _ _ _⟩
  · refine ⟨_, (step_input hin).trans (provideBuf_of_pos hcap), ?_⟩
    rw [storageAt_setStorageAt_same]
    exact ⟨rfl, fun _ => rfl, rfl, rfl, rfl, others _ _ _⟩
  · exact (step_input hin).trans (hostWriteWord_refused hbad)
  · exact (step_input hin).trans (provideBuf_zero k shared _)

end Sys2Proof.Machine
end
